-- ==== Sys2Proof/Word.lean ====
section
/-! DEFINITION. The words of the block: bytes, the two frame records, the items of the CAN receive queue, the two
write outcomes, the sequencing state and the five events (spec/10_state.md section 3, spec/60_exceptions.md R140). -/

namespace Sys2Proof

/-- 8 bits, 0 to 255 (spec/00_scope.md section 5.1). -/
abbrev Byte := BitVec 8

/-- The 8 payload bytes, index 0 to 7: `F.data` of a CAN frame (R12), offsets 2 to 9 of a serial frame (R70). -/
structure Payload where
  b0 : Byte
  b1 : Byte
  b2 : Byte
  b3 : Byte
  b4 : Byte
  b5 : Byte
  b6 : Byte
  b7 : Byte
deriving DecidableEq, Repr, Inhabited

/-- A serial frame buffer, R13 with the fields of R70: offset 0 `hdr`, 1 `len`, 2 to 9 `pay`, 10 `ck`. -/
structure SerialFrame where
  hdr : Byte
  len : Byte
  pay : Payload
  ck  : Byte
deriving DecidableEq, Repr, Inhabited

/-- A CAN frame record, R12: an 11-bit identifier, a data length code held in 4 bits, 8 data bytes, and no other
field (D20, D21). -/
structure CanFrame where
  id   : BitVec 11
  dlc  : BitVec 4
  data : Payload
deriving DecidableEq, Repr, Inhabited

/-- An item of CRXQ, R22: a frame, or the transport's report of a failed read. -/
inductive Item where
  | frame (F : CanFrame)
  | err
deriving DecidableEq, Repr, Inhabited

/-- The two pipelines, R10; each owns one instance of CK (R96). -/
inductive Pipe where
  | c2s
  | s2c
deriving DecidableEq, Repr, Inhabited

/-- The outcome the environment draws for a CAN write, R52. -/
inductive CanWrite where
  | ok
  | fail
deriving DecidableEq, Repr, Inhabited

/-- The sequencing state of a pipeline, R11. -/
inductive SeqState where
  | wait
  | proc
  | halt
deriving DecidableEq, Repr, Inhabited

/-- The five events with their payloads, R140. `transportWriteError` carries the number of bytes accepted when C2S
raises it and nothing when S2C does. -/
inductive Event where
  | transportOpenError
  | transportReadError
  | transportWriteError (accepted : Option (Fin 12))
  | checksumMismatch (computed received : Byte)
  | framingAmbiguity (m : Nat)
deriving DecidableEq, Repr, Inhabited

/-- All 8 bytes 0. -/
def Payload.zero : Payload := ⟨0, 0, 0, 0, 0, 0, 0, 0⟩

/-- "`OBUF <- zero`, meaning every byte 0" (spec/00_scope.md section 5.2). -/
def SerialFrame.zero : SerialFrame := ⟨0, 0, Payload.zero, 0⟩

/-- Every field of a CAN frame record 0. -/
def CanFrame.zero : CanFrame := ⟨0, 0, Payload.zero⟩

end Sys2Proof
end

