-- ==== Sys2Proof/Machine/Flags.lean ====
section
/-! DEFINITION. The STATUS registers: event codes, flag bits, and the one way a flag is set (R19, R140, R146). -/

namespace Sys2Proof.Machine

/-- The code of an event, R140; it is also its bit position in STATUS (R19). -/
def eventCode : Event → Nat
  | .transportOpenError => 1
  | .transportReadError => 2
  | .transportWriteError _ => 3
  | .checksumMismatch _ _ => 4
  | .framingAmbiguity _ => 5

/-- The flag bit of an event. -/
def flagBit (e : Event) : BitVec 8 := 1#8 <<< eventCode e

/-- The settable bits of each STATUS, R19's table: OPENERR, RDERR, WRERR in C2S; OPENERR, WRERR, CKERR, SURPLUS in S2C.
Every other bit is hardwired or reserved and reads 0. -/
def settable : Pipe → BitVec 8
  | .c2s => 0x0E
  | .s2c => 0x3A

/-- `STATUS[code(E)] <- 1` of R146; a hardwired bit (R19) cannot be set. DEDUCED, log 13. -/
def setFlag (P : Pipe) (e : Event) (status : BitVec 8) : BitVec 8 := status ||| (flagBit e &&& settable P)

end Sys2Proof.Machine
end

