-- ==== Sys2Proof/Config.lean ====
section
/-! DEFINITION. What an implementation fixes, and what the spec leaves to the environment: the constants the document
fixes (spec/00_scope.md section 4), the open identifier CAN_TX_ID, and the free choice of the next turn. -/

namespace Sys2Proof

/-- A turn: which agent moves next, with everything the environment chooses for that move (R56, R180). `c2s k` and
`s2c w` give a pipeline the turn; which of its steps happens is a function of its state alone (R25), and the draw
is used only if that step writes (R51, R52). The other four are the environment's own steps (R49, R50, R170).
DESIGN CHOICE, log 1. Safe: every interleaving and every draw is a list of turns. -/
inductive Turn where
  | c2s (k : Fin 12)
  | s2c (w : CanWrite)
  | srxPush (b : Byte)
  | crxPush (F : CanFrame)
  | crxPushErr
  | reset (openOk : Bool)
deriving DecidableEq, Repr, Inhabited

/-- FREE VALUE: the identifier CAN_TX_ID of every CAN frame the block emits. OPEN in the spec (D5, U4): "no value can be
recovered from the source"; log 3. -/
opaque Config.canTxId : BitVec 11

/-- FREE VALUE: the turn taken at the n-th moment at which no turn stands in the schedule. "At every moment any enabled
step of any agent may be the next to happen" (R180, U16); log 1. -/
opaque Config.freeTurn : Nat → Turn

/-- RXQ_DEPTH in the machine after reset: unbounded, the spec's default (spec/00_scope.md section 4, D6); log 4. -/
def Config.rxqDepth : Option Nat := none

/-- CRXQ_DEPTH in the machine after reset: unbounded, the spec's default (spec/00_scope.md section 4, D7); log 4. -/
def Config.crxqDepth : Option Nat := none

end Sys2Proof
end

