-- ==== Sys2Proof/Machine/Operands.lean ====
section
/-! DEFINITION. The operand forms: the checksum of a payload (R90), the bytes of a serial frame in order (R42, R70), the
ten bytes of a CAN frame record (R75), the window at the head of a byte queue (R47, R121), and the frames the block builds
(R72 to R74, R76). -/

namespace Sys2Proof

/-- The payload bytes in increasing index. -/
def Payload.bytes (p : Payload) : List Byte := [p.b0, p.b1, p.b2, p.b3, p.b4, p.b5, p.b6, p.b7]

/-- CK.SUM8, R90: the sum of the 8 bytes over the natural numbers, then reduced modulo 256. -/
def cksum8 (p : Payload) : Byte :=
  BitVec.ofNat 8 ((p.b0.toNat + p.b1.toNat + p.b2.toNat + p.b3.toNat
    + p.b4.toNat + p.b5.toNat + p.b6.toNat + p.b7.toNat) % 256)

/-- CK.ADD's sum, R92: `(zext_9(acc) + zext_9(b))[7:0]`; the carry is dropped. -/
def ckSum (acc b : Byte) : Byte := (acc.setWidth 9 + b.setWidth 9).extractLsb' 0 8

/-- START_MARKER, R72. -/
def startMarker : Byte := 0x24

/-- LEN_CONST, R72. -/
def lenConst : Byte := 0x08

/-- CAN_DLC_TX, R76. -/
def canDlcTx : BitVec 4 := 8

/-- The bytes of a serial frame in increasing offset, R42. -/
def SerialFrame.bytes (f : SerialFrame) : List Byte := f.hdr :: f.len :: (f.pay.bytes ++ [f.ck])

/-- The frame whose offset `i` holds `q[i]`, i = 0 to 10: the window at the head of SRXQ when `q` has 11 bytes or more
(R121). -/
def SerialFrame.window (q : List Byte) : SerialFrame :=
  { hdr := q.getD 0 0
    len := q.getD 1 0
    pay := ⟨q.getD 2 0, q.getD 3 0, q.getD 4 0, q.getD 5 0, q.getD 6 0, q.getD 7 0, q.getD 8 0, q.getD 9 0⟩
    ck := q.getD 10 0 }

/-- The serial frame C2S builds from a payload: R72, R73, R74. -/
def sfFrame (p : Payload) : SerialFrame := ⟨startMarker, lenConst, p, cksum8 p⟩

/-- The CAN frame S2C builds from a payload: R76. -/
def cfFrame (id : BitVec 11) (d : Payload) : CanFrame := ⟨id, canDlcTx, d⟩

/-- A CAN frame record's 79-bit vector `{id, dlc, d0, ..., d7}` of R75, right-aligned in ten bytes, most significant
byte first: one zero bit, then `id` and `dlc` in the first two bytes, then the data. DESIGN CHOICE, log 9. Safe: a
writing convention. -/
def CanFrame.bytes (F : CanFrame) : List Byte :=
  ((0 : BitVec 1) ++ F.id.extractLsb' 4 7) :: (F.id.extractLsb' 0 4 ++ F.dlc) :: F.data.bytes

/-- A natural number's `n` low bytes, most significant byte first (R71: the first byte in the highest bits). -/
def bytesOfNat : Nat → Nat → List Byte
  | 0, _ => []
  | n + 1, v => BitVec.ofNat 8 (v / 256 ^ n) :: bytesOfNat n v

/-- The number a byte string writes, most significant byte first: the bit vector of R71 and R75 as a number. -/
def natOfBytes (q : List Byte) : Nat := q.foldl (fun v b => v * 256 + b.toNat) 0

end Sys2Proof
end

