-- ==== Sys2Proof/Syntax.lean ====
section
/-! DEFINITION. The instructions: one constructor per row of spec/opcode_table.json. An instruction of this block is one
named step, or one named phase of a step (spec/00_scope.md section 5.4). -/

namespace Sys2Proof

/-- The 16 rows of the table, in its order. `k` is the draw of a serial write, 0 to 11 (R51); `w` the draw of a CAN
write (R52). The window and the item that select a step are its operands, as an instruction word's fields are. -/
inductive Instr where
  /-- S2C.FWD, R122: the window `W` whose checksum matches. -/
  | s2cFwd (W : SerialFrame) (w : CanWrite)
  /-- S2C.DROP, R123: the window `W` whose checksum differs. -/
  | s2cDrop (W : SerialFrame)
  /-- C2S.RECV, R100: the frame at the head of CRXQ. -/
  | c2sRecv (F : CanFrame)
  /-- C2S.RDERR, R101: the head of CRXQ is `Err`. -/
  | c2sRderr
  /-- SF.TX, R70 and R72 to R74 within R102: the frame `24 08 p ck` built and offered to STX. -/
  | sfTx (p : Payload) (k : Fin 12)
  /-- CF.TX, R75 and R76 within R122: the frame `(id, 8, d)` built and offered to CTX. -/
  | cfTx (id : BitVec 11) (d : Payload) (w : CanWrite)
  /-- C2S.PROC, R102. -/
  | c2sProc (k : Fin 12)
  /-- S2C.POLL, R120. -/
  | s2cPoll
  /-- S2C.CAPTURE, R121. -/
  | s2cCapture
  /-- CK.SUM8, R90. -/
  | ckSum8 (p : Payload)
  /-- CK.CLR, R91, of the instance of CK in pipeline `P` (R96). -/
  | ckClr (P : Pipe)
  /-- CK.ADD, R92, of the instance of CK in pipeline `P` (R96). -/
  | ckAdd (P : Pipe) (b : Byte)
  /-- ENV.SRX.PUSH, R49. -/
  | envSrxPush (b : Byte)
  /-- ENV.CRX.PUSH, R50. -/
  | envCrxPush (F : CanFrame)
  /-- ENV.CRX.PUSHERR, R50. -/
  | envCrxPusherr
  /-- RESET, R170, R171. -/
  | reset (openOk : Bool)
deriving DecidableEq, Repr, Inhabited

end Sys2Proof
end

