-- ==== Sys2Proof/WellFormed.lean ====
section
/-! DEFINITION. Which instructions the spec gives: the relations between fields that the opcode table's constraints state.
-/

namespace Sys2Proof

/-- The table's constraints on the fields of one instruction: the checksum of a forwarded window agrees and that of a
dropped one differs (R77); a CAN frame the environment delivers has a data length code of at most 8 (R50). The draws and
the field widths are bounded by their types. -/
def Instr.wf : Instr → Bool
  | .s2cFwd W _ => decide (cksum8 W.pay = W.ck)
  | .s2cDrop W => decide (cksum8 W.pay ≠ W.ck)
  | .envCrxPush F => decide (F.dlc.toNat ≤ 8)
  | .c2sRecv _ | .c2sRderr | .sfTx _ _ | .cfTx _ _ _ | .c2sProc _ | .s2cPoll | .s2cCapture | .ckSum8 _
  | .ckClr _ | .ckAdd _ _ | .envSrxPush _ | .envCrxPusherr | .reset _ => true

end Sys2Proof
end

