-- ==== Sys2Proof/Decode.lean ====
section
/-! DEFINITION. The decoder: which instruction the bytes at a selection point stand for (R77, R78 for input; R70 to R76 for
the output formats; the operand bytes alone for the rows no bit pattern selects), total on any bytes, rejecting by
name; and after it the encoder. -/

namespace Sys2Proof

/-- Where an instruction's bytes stand: the 'format' and 'selected by' columns of spec/30_encoding.md section 4. A
draw of the environment is no part of the bytes and comes with the place. -/
inductive Port where
  /-- SF ingress: the 11 bytes of S2C's IBUF in PROC, with the draw the CAN write will get. -/
  | window (w : CanWrite)
  /-- CF ingress: the item at the head of CRXQ; ten bytes for `Frame(F)`, none for `Err`. -/
  | item
  /-- SF egress: the 11 bytes offered to STX, with the draw of the serial write. -/
  | stx (k : Fin 12)
  /-- CF egress: the record offered to CTX, with the draw of the CAN write. -/
  | ctx (w : CanWrite)
  /-- step C2S.PROC: one byte, its field `k`. -/
  | c2sProc
  /-- step S2C.POLL: no byte. -/
  | s2cPoll
  /-- step S2C.CAPTURE: no byte. -/
  | s2cCapture
  /-- function CK.SUM8: its 8 bytes. -/
  | sum8
  /-- micro-operation CK.CLR of one instance: no byte. -/
  | ckClr (P : Pipe)
  /-- micro-operation CK.ADD of one instance: its byte. -/
  | ckAdd (P : Pipe)
  /-- environment step ENV.SRX.PUSH: its byte. -/
  | srx
  /-- environment step ENV.CRX.PUSH: the ten bytes of its record. -/
  | crx
  /-- environment step ENV.CRX.PUSHERR: no byte. -/
  | crxErr
  /-- environment step RESET: one byte, 1 for OPEN_OK true and 0 for false. -/
  | reset
deriving DecidableEq, Repr

/-- Why bytes at a place stand for no instruction. -/
inductive Reject where
  /-- not as many bytes as the format has -/
  | wrongLength
  /-- bit 79 of a CAN record's ten bytes is not 0 (R75 has bits 78 to 0) -/
  | strayBit
  /-- an egress serial frame does not begin 24 08 (R72) -/
  | wrongHeader
  /-- an egress serial frame's checksum is not that of its payload (R74) -/
  | wrongChecksum
  /-- an egress CAN frame's data length code is not 8 (R76) -/
  | wrongDlc
  /-- a draw of a serial write above 11 (R51) -/
  | drawAbove11
  /-- a value of OPEN_OK other than 0 and 1 (R170) -/
  | flagAbove1
deriving DecidableEq, Repr

/-- A payload from exactly 8 bytes. -/
def Payload.ofBytes : List Byte → Except Reject Payload
  | [b0, b1, b2, b3, b4, b5, b6, b7] => .ok ⟨b0, b1, b2, b3, b4, b5, b6, b7⟩
  | _ => .error .wrongLength

/-- A serial frame from exactly 11 bytes, R70. -/
def SerialFrame.ofBytes : List Byte → Except Reject SerialFrame
  | [h, l, b0, b1, b2, b3, b4, b5, b6, b7, c] => .ok ⟨h, l, ⟨b0, b1, b2, b3, b4, b5, b6, b7⟩, c⟩
  | _ => .error .wrongLength

/-- A CAN frame record from exactly ten bytes, R75. -/
def CanFrame.ofBytes : List Byte → Except Reject CanFrame
  | [h, l, b0, b1, b2, b3, b4, b5, b6, b7] =>
    if h.extractLsb' 7 1 = 0 then
      .ok ⟨h.extractLsb' 0 7 ++ l.extractLsb' 4 4, l.extractLsb' 0 4, ⟨b0, b1, b2, b3, b4, b5, b6, b7⟩⟩
    else .error .strayBit
  | _ => .error .wrongLength

/-- R77: a window is classified by one test and no other; offsets 0 and 1 take no part. -/
def classifyWindow (W : SerialFrame) (w : CanWrite) : Instr :=
  if cksum8 W.pay = W.ck then .s2cFwd W w else .s2cDrop W

/-- The output format SF.TX: R72, R74. -/
def checkSfTx (f : SerialFrame) (k : Fin 12) : Except Reject Instr :=
  if f.hdr = startMarker ∧ f.len = lenConst then
    if f.ck = cksum8 f.pay then .ok (.sfTx f.pay k) else .error .wrongChecksum
  else .error .wrongHeader

/-- The output format CF.TX: R76. -/
def checkCfTx (F : CanFrame) (w : CanWrite) : Except Reject Instr :=
  if F.dlc = canDlcTx then .ok (.cfTx F.id F.data w) else .error .wrongDlc

/-- A row with no operand bytes. -/
def bare (i : Instr) : List Byte → Except Reject Instr
  | [] => .ok i
  | _ => .error .wrongLength

/-- A row with one operand byte. -/
def oneByte (f : Byte → Except Reject Instr) : List Byte → Except Reject Instr
  | [b] => f b
  | _ => .error .wrongLength

/-- The draw a byte writes, R51. -/
def drawOf (b : Byte) : Except Reject Instr :=
  if h : b.toNat < 12 then .ok (.c2sProc ⟨b.toNat, h⟩) else .error .drawAbove11

/-- OPEN_OK as a byte. -/
def flagOf (b : Byte) : Except Reject Instr :=
  if b = 0 then .ok (.reset false) else if b = 1 then .ok (.reset true) else .error .flagAbove1

/-- The decoder. At `window` and `item` it never rejects what the block can hold there (R79). -/
def decode : Port → List Byte → Except Reject Instr
  | .window w, q => (SerialFrame.ofBytes q).map (fun W => classifyWindow W w)
  | .item, [] => .ok .c2sRderr
  | .item, q => (CanFrame.ofBytes q).map .c2sRecv
  | .stx k, q => (SerialFrame.ofBytes q).bind (fun f => checkSfTx f k)
  | .ctx w, q => (CanFrame.ofBytes q).bind (fun F => checkCfTx F w)
  | .c2sProc, q => oneByte drawOf q
  | .s2cPoll, q => bare .s2cPoll q
  | .s2cCapture, q => bare .s2cCapture q
  | .sum8, q => (Payload.ofBytes q).map .ckSum8
  | .ckClr P, q => bare (.ckClr P) q
  | .ckAdd P, q => oneByte (fun b => .ok (.ckAdd P b)) q
  | .srx, q => oneByte (fun b => .ok (.envSrxPush b)) q
  | .crx, q => (CanFrame.ofBytes q).map .envCrxPush
  | .crxErr, q => bare .envCrxPusherr q
  | .reset, q => oneByte flagOf q

/-- The encoder: where an instruction's bytes stand, and what they are (R71, R75; the operand bytes alone for a row no bit
pattern selects, log 9). A dropped window's place carries the draw `ok`, which S2C.DROP has no use for. -/
def encode : Instr → Port × List Byte
  | .s2cFwd W w => (.window w, W.bytes)
  | .s2cDrop W => (.window .ok, W.bytes)
  | .c2sRecv F => (.item, F.bytes)
  | .c2sRderr => (.item, [])
  | .sfTx p k => (.stx k, (sfFrame p).bytes)
  | .cfTx id d w => (.ctx w, (cfFrame id d).bytes)
  | .c2sProc k => (.c2sProc, [BitVec.ofNat 8 k.val])
  | .s2cPoll => (.s2cPoll, [])
  | .s2cCapture => (.s2cCapture, [])
  | .ckSum8 p => (.sum8, p.bytes)
  | .ckClr P => (.ckClr P, [])
  | .ckAdd P b => (.ckAdd P, [b])
  | .envSrxPush b => (.srx, [b])
  | .envCrxPush F => (.crx, F.bytes)
  | .envCrxPusherr => (.crxErr, [])
  | .reset openOk => (.reset, [if openOk then 1 else 0])

/-- How many bytes stand at the place of an instruction: 11 for a serial frame, ten for a CAN record, the operand bytes
for the other rows. -/
def Instr.byteCount : Instr → Nat
  | .s2cFwd _ _ | .s2cDrop _ | .sfTx _ _ => 11
  | .c2sRecv _ | .cfTx _ _ _ | .envCrxPush _ => 10
  | .ckSum8 _ => 8
  | .c2sProc _ | .ckAdd _ _ | .envSrxPush _ | .reset _ => 1
  | .c2sRderr | .s2cPoll | .s2cCapture | .ckClr _ | .envCrxPusherr => 0

/-- The place and the bytes of a word of spec/opcode_table.json that the block's input can hold: 88 bits are a window
(R71), 79 bits (80 in whole bytes) a `Frame` item (R75), no bits an `Err` item (R78). The table's egress rows and
ENV.CRX.PUSH share these widths and are told apart by where the bits stand, not by the bits; log 7. -/
def tableWord (nbits w : Nat) : Option (Port × List Byte) :=
  if 2 ^ nbits ≤ w then none
  else if nbits = 88 then some (.window .ok, bytesOfNat 11 w)
  else if nbits = 79 ∨ nbits = 80 then some (.item, bytesOfNat 10 w)
  else if nbits = 0 then some (.item, [])
  else none

/-- What the decoder reads from a word of the table (see `tableWord`). -/
def decodeTableWord (nbits w : Nat) : Option Instr :=
  (tableWord nbits w).bind (fun pq => (decode pq.1 pq.2).toOption)

end Sys2Proof
end

