-- ==== Sys2Proof/Machine/State.lean ====
section
/-! DEFINITION. The state of the block (spec/10_state.md), its value after reset (R27), and the reasons a step can stop. -/

namespace Sys2Proof.Machine

/-- The registers of C2S: R11, R14, R15, R18, R19, R24. -/
structure C2S where
  st     : SeqState
  canin  : CanFrame
  obuf   : SerialFrame
  acc    : Byte
  status : BitVec 8
  evt    : List Event
deriving DecidableEq, Repr, Inhabited

/-- The registers of S2C: R11, R16, R17, R18, R19, R24. -/
structure S2C where
  st     : SeqState
  ibuf   : SerialFrame
  canout : CanFrame
  acc    : Byte
  status : BitVec 8
  evt    : List Event
deriving DecidableEq, Repr, Inhabited

/-- The parameters the document leaves open (spec/00_scope.md section 4), constant while the block runs (R20). `none` is
an unbounded depth. -/
structure Params where
  canTxId   : BitVec 11
  rxqDepth  : Option Nat
  crxqDepth : Option Nat
deriving DecidableEq, Repr, Inhabited

/-- The whole block: the two pipelines, the four channels (R21 to R23) and the parameters; then the model's own two
fields, the turns placed and not yet taken, and the count of free turns drawn (log 1). -/
structure State where
  c2s   : C2S
  s2c   : S2C
  srxq  : List Byte
  crxq  : List Item
  stx   : List Byte
  ctx   : List CanFrame
  par   : Params
  sched : List Turn
  tick  : Nat
deriving DecidableEq, Repr, Inhabited

/-- C2S's registers in the third column of R27's table. -/
def C2S.zero : C2S := ⟨.wait, CanFrame.zero, SerialFrame.zero, 0, 0, []⟩

/-- S2C's registers in the third column of R27's table. -/
def S2C.zero : S2C := ⟨.wait, SerialFrame.zero, CanFrame.zero, 0, 0, []⟩

/-- The block right after a reset with `OPEN_OK = true` (R27, R170; log 5), with no turn placed. -/
def State.reset : State :=
  { c2s := C2S.zero
    s2c := S2C.zero
    srxq := []
    crxq := []
    stx := []
    ctx := []
    par := ⟨Config.canTxId, Config.rxqDepth, Config.crxqDepth⟩
    sched := []
    tick := 0 }

/-- Why a step stops (log 6). -/
inductive Fault where
  /-- Raised by `exec` alone, for a step whose 'Enabled when' does not hold: the spec has no such transition (R11, R54). Safe:
  `step` selects the step from the state (R25) and never answers this. -/
  | notEnabled
deriving DecidableEq, Repr

/-- Why a step is refused. -/
inductive Refusal where
  /-- Raised by no arm: every row of the table has its meaning. Safe. -/
  | notModelled (mnemonic : String)
  /-- Raised by `step` were the bytes at a selection point to decode to no instruction; no state makes it answer this
  (R79). Safe. -/
  | undecoded (why : Reject)
deriving DecidableEq, Repr

end Sys2Proof.Machine
end

