-- ==== Sys2Proof/Machine/Ops.lean ====
section
/-! DEFINITION. The operations the meanings share: raising an event (R146), the accumulator's two micro-operations and
the accumulation sequence (R91 to R93), the channel operations (R47 to R52), and reset (R170, R171). -/

namespace Sys2Proof.Machine

/-- TAKING AN EXCEPTION, R146: `raise E` by pipeline `P` appends the event to `P.EVT` and sets bit `code(E)` of `P.STATUS`, and
nothing else. There is no handler and no return from one (R147, R151). -/
def raise (P : Pipe) (e : Event) (s : State) : State :=
  match P with
  | .c2s => { s with c2s := { s.c2s with status := setFlag .c2s e s.c2s.status, evt := s.c2s.evt ++ [e] } }
  | .s2c => { s with s2c := { s.s2c with status := setFlag .s2c e s.s2c.status, evt := s.s2c.evt ++ [e] } }

/-- The accumulator of the instance of CK in `P` (R18, R96). -/
def acc (P : Pipe) (s : State) : Byte :=
  match P with
  | .c2s => s.c2s.acc
  | .s2c => s.s2c.acc

/-- Write that accumulator. -/
def setAcc (P : Pipe) (v : Byte) (s : State) : State :=
  match P with
  | .c2s => { s with c2s := { s.c2s with acc := v } }
  | .s2c => { s with s2c := { s.s2c with acc := v } }

/-- R91: `ACC <- 0`. -/
def accClear (P : Pipe) (s : State) : State := setAcc P 0 s

/-- R92: `ACC <- (ACC + b) mod 256`. -/
def accAdd (P : Pipe) (b : Byte) (s : State) : State := setAcc P (ckSum (acc P s) b) s

/-- R93: clear, then add the bytes in increasing index. -/
def accRun (P : Pipe) (p : Payload) (s : State) : State :=
  p.bytes.foldl (fun t b => accAdd P b t) (accClear P s)

/-- `SrxCount()`: the length of SRXQ; changes nothing (R48). -/
def srxCount (s : State) : Nat := s.srxq.length

/-- `SrxRead(11)` into IBUF: `IBUF[i] <- SRXQ[i]` for i = 0 to 10, and the 11 bytes leave SRXQ (R48, R121).
It cannot fail (D18; log 11). -/
def srxRead (s : State) : State :=
  { s with s2c := { s.s2c with ibuf := SerialFrame.window s.srxq }, srxq := s.srxq.drop 11 }

/-- `SrxDrain()`: every byte of SRXQ is removed and lost (R48). -/
def srxDrain (s : State) : State := { s with srxq := [] }

/-- `CrxHead()`: the first item of CRXQ, not removed. -/
def crxHead (s : State) : Option Item := s.crxq.head?

/-- `CrxPop()`: removes the first item of CRXQ. -/
def crxPop (s : State) : State := { s with crxq := s.crxq.tail }

/-- `StxWrite(f)` when the environment draws `k`: the first `k` bytes of `f` are appended to STX (R51). -/
def stxWrite (k : Fin 12) (f : SerialFrame) (s : State) : State := { s with stx := s.stx ++ f.bytes.take k.val }

/-- `CtxWrite(F)` when the environment draws `w`: `F` is appended to CTX if `w = OK` (R52). It never blocks
(D16; log 11). -/
def ctxWrite (w : CanWrite) (F : CanFrame) (s : State) : State :=
  match w with
  | .ok => { s with ctx := s.ctx ++ [F] }
  | .fail => s

/-- Is there room for one more in a queue of length `n`? Always, when the depth is unbounded (R49, R50; D6, D7). -/
def hasRoom (depth : Option Nat) (n : Nat) : Bool :=
  match depth with
  | none => true
  | some d => decide (n < d)

/-- The environment's append to CRXQ, R50: at the tail if there is room, otherwise the item is lost. -/
def crxPush (x : Item) (s : State) : State :=
  if hasRoom s.par.crxqDepth s.crxq.length then { s with crxq := s.crxq ++ [x] } else s

/-- The environment's append to SRXQ, R49. -/
def srxPush (b : Byte) (s : State) : State :=
  if hasRoom s.par.rxqDepth s.srxq.length then { s with srxq := s.srxq ++ [b] } else s

/-- The third column of R27's table; the parameters keep their values (R20), and the turns still to come are the
environment's and stay (log 5). -/
def resetZero (s : State) : State :=
  { s with c2s := C2S.zero, s2c := S2C.zero, srxq := [], crxq := [], stx := [], ctx := [] }

/-- Both pipelines enter HALT (R171). -/
def haltBoth (s : State) : State :=
  { s with c2s := { s.c2s with st := .halt }, s2c := { s.s2c with st := .halt } }

/-- RESET with `OPEN_OK`, R170; when it is false both pipelines raise TransportOpenError and halt (R141, R171). -/
def resetBlock (openOk : Bool) (s : State) : State :=
  if openOk then resetZero s
  else haltBoth (raise .s2c .transportOpenError (raise .c2s .transportOpenError (resetZero s)))

end Sys2Proof.Machine
end

