-- ==== Sys2Proof/Machine/CanToSerial.lean ====
section
/-! DEFINITION. The meanings of C2S's rows: C2S.RECV (R100), C2S.RDERR (R101), C2S.PROC (R102) by its five phases, and SF.TX, the
frame its first four phases build and offer. -/

namespace Sys2Proof.Machine

/-- C2S.RECV, R100. -/
def execC2sRecv (F : CanFrame) (s : State) : Host.Outcome State Fault Refusal :=
  if s.c2s.st = .wait ∧ crxHead s = some (.frame F) then
    let t := crxPop s
    .next { t with c2s := { t.c2s with canin := F, st := .proc } }
  else .fault .notEnabled

/-- C2S.RDERR, R101. -/
def execC2sRderr (s : State) : Host.Outcome State Fault Refusal :=
  if s.c2s.st = .wait ∧ crxHead s = some .err then .next (raise .c2s .transportReadError (crxPop s))
  else .fault .notEnabled

/-- R102 phase 1, header: `OBUF[0] <- 0x24 ; OBUF[1] <- 0x08`, written in every cycle (D10). -/
def c2sHeader (s : State) : State :=
  { s with c2s := { s.c2s with obuf := { s.c2s.obuf with hdr := startMarker, len := lenConst } } }

/-- R102 phase 2, copy: `OBUF[2+i] <- CANIN.data[i]`, whatever the length code (R73). -/
def c2sCopy (s : State) : State :=
  { s with c2s := { s.c2s with obuf := { s.c2s.obuf with pay := s.c2s.canin.data } } }

/-- R102 phase 3, checksum: the accumulation sequence over OBUF[2..9], then `OBUF[10] <- ACC`. -/
def c2sChecksum (s : State) : State :=
  let t := accRun .c2s s.c2s.obuf.pay s
  { t with c2s := { t.c2s with obuf := { t.c2s.obuf with ck := t.c2s.acc } } }

/-- R102 phase 4, write: `StxWrite(OBUF)` draws `k`; `k != 11` raises TransportWriteError(k); never retried. -/
def c2sWrite (k : Fin 12) (s : State) : State :=
  let t := stxWrite k s.c2s.obuf s
  if k.val = 11 then t else raise .c2s (.transportWriteError (some k)) t

/-- R102 phase 5, clear, whatever `k` was: `OBUF`, `CANIN` and `ACC` to zero, `st <- WAIT`. -/
def c2sClear (s : State) : State :=
  { s with c2s := { s.c2s with st := .wait, canin := CanFrame.zero, obuf := SerialFrame.zero, acc := 0 } }

/-- R102 phases 1 to 4: the frame is built in OBUF and offered to STX. -/
def c2sTransmit (k : Fin 12) (s : State) : State := c2sWrite k (c2sChecksum (c2sCopy (c2sHeader s)))

/-- C2S.PROC, R102: five phases in one atomic step (D29). -/
def execC2sProc (k : Fin 12) (s : State) : Host.Outcome State Fault Refusal :=
  if s.c2s.st = .proc then .next (c2sClear (c2sTransmit k s)) else .fault .notEnabled

/-- SF.TX: the output format of C2S.PROC, "the frame C2S.PROC offers to STX" (spec/30_encoding.md section 4), with the table's
constraint `p[i] == CANIN.data[i]`. Its effect is R102's phases 1 to 4, which build that frame and offer it; DESIGN CHOICE, log 8.
Safe: `step` never runs a phase as a step of its own. -/
def execSfTx (p : Payload) (k : Fin 12) (s : State) : Host.Outcome State Fault Refusal :=
  if s.c2s.st = .proc ∧ s.c2s.canin.data = p then .next (c2sTransmit k s) else .fault .notEnabled

end Sys2Proof.Machine
end

