-- ==== Sys2Proof/Machine/Ck.lean ====
section
/-! DEFINITION. The meanings of CK's rows: CK.SUM8 (R90), CK.CLR (R91), CK.ADD (R92). -/

namespace Sys2Proof.Machine

/-- CK.SUM8, R90: "Pure function, no side effects", "State written: none"; its value is `cksum8 p`, which the meanings
that use it compute (log 8). -/
def execCkSum8 (_p : Payload) (s : State) : Host.Outcome State Fault Refusal := .next s

/-- CK.CLR, R91. -/
def execCkClr (P : Pipe) (s : State) : Host.Outcome State Fault Refusal := .next (accClear P s)

/-- CK.ADD, R92. -/
def execCkAdd (P : Pipe) (b : Byte) (s : State) : Host.Outcome State Fault Refusal := .next (accAdd P b s)

end Sys2Proof.Machine
end

