-- ==== Sys2Proof/Machine/Env.lean ====
section
/-! DEFINITION. The meanings of the environment's rows: ENV.SRX.PUSH (R49), ENV.CRX.PUSH and ENV.CRX.PUSHERR (R50), RESET (R170,
R171). All are always enabled. -/

namespace Sys2Proof.Machine

/-- ENV.SRX.PUSH, R49. -/
def execEnvSrxPush (b : Byte) (s : State) : Host.Outcome State Fault Refusal := .next (srxPush b s)

/-- ENV.CRX.PUSH, R50. A data length code above 8, which the environment does not deliver, changes nothing: the block
never reads it (R79 case (e), D30; log 10). -/
def execEnvCrxPush (F : CanFrame) (s : State) : Host.Outcome State Fault Refusal := .next (crxPush (.frame F) s)

/-- ENV.CRX.PUSHERR, R50. -/
def execEnvCrxPusherr (s : State) : Host.Outcome State Fault Refusal := .next (crxPush .err s)

/-- RESET, R170, R171. -/
def execReset (openOk : Bool) (s : State) : Host.Outcome State Fault Refusal := .next (resetBlock openOk s)

end Sys2Proof.Machine
end

