-- ==== Sys2Proof/Machine/SerialToCan.lean ====
section
/-! DEFINITION. The meanings of S2C's rows: S2C.POLL (R120), S2C.CAPTURE (R121), S2C.FWD (R122), S2C.DROP (R123) by their phases, and
CF.TX, the frame S2C.FWD's middle phases build and offer. -/

namespace Sys2Proof.Machine

/-- S2C.POLL, R120: changes no state at all. -/
def execS2cPoll (s : State) : Host.Outcome State Fault Refusal :=
  if s.s2c.st = .wait ∧ srxCount s < 11 then .next s else .fault .notEnabled

/-- R121's sub-operations in order: count and read 11 bytes, drain the rest, raise FramingAmbiguity if there was a surplus
(D14), go to PROC. -/
def s2cTake (s : State) : State :=
  let t := srxRead s
  let m := srxCount t
  let u := srxDrain t
  let v := if 0 < m then raise .s2c (.framingAmbiguity m) u else u
  { v with s2c := { v.s2c with st := .proc } }

/-- S2C.CAPTURE, R121: count, read and drain in one atomic step (D8). -/
def execS2cCapture (s : State) : Host.Outcome State Fault Refusal :=
  if s.s2c.st = .wait ∧ 11 ≤ srxCount s then .next (s2cTake s) else .fault .notEnabled

/-- Phase 1 of R122 and R123: the accumulation sequence over IBUF[2..9]. -/
def s2cChecksum (s : State) : State := accRun .s2c s.s2c.ibuf.pay s

/-- R122 phase 2, build: the CAN frame of R76. -/
def s2cBuild (s : State) : State :=
  { s with s2c := { s.s2c with canout := cfFrame s.par.canTxId s.s2c.ibuf.pay } }

/-- R122 phase 3, write: `CtxWrite(CANOUT)` draws `w`; `FAIL` raises TransportWriteError; never retried. -/
def s2cWrite (w : CanWrite) (s : State) : State :=
  let t := ctxWrite w s.s2c.canout s
  match w with
  | .ok => t
  | .fail => raise .s2c (.transportWriteError none) t

/-- The last phase of R122 and R123, clear: `IBUF`, `CANOUT` and `ACC` to zero, `st <- WAIT` (D11). -/
def s2cClear (s : State) : State :=
  { s with s2c := { s.s2c with st := .wait, ibuf := SerialFrame.zero, canout := CanFrame.zero, acc := 0 } }

/-- S2C.FWD, R122: enabled in PROC when the window in IBUF has the checksum it carries; offsets 0 and 1 are not read
(R124). -/
def execS2cFwd (W : SerialFrame) (w : CanWrite) (s : State) : Host.Outcome State Fault Refusal :=
  if s.s2c.st = .proc ∧ s.s2c.ibuf = W ∧ cksum8 W.pay = W.ck then
    .next (s2cClear (s2cWrite w (s2cBuild (s2cChecksum s))))
  else .fault .notEnabled

/-- R123 phase 2, clear: `IBUF` and `ACC` to zero, `st <- WAIT`; CANOUT was never written and is left as it is. -/
def s2cDropClear (s : State) : State :=
  { s with s2c := { s.s2c with st := .wait, ibuf := SerialFrame.zero, acc := 0 } }

/-- S2C.DROP, R123: the computed checksum and the received one are recorded, and nothing is sent anywhere. -/
def execS2cDrop (W : SerialFrame) (s : State) : Host.Outcome State Fault Refusal :=
  if s.s2c.st = .proc ∧ s.s2c.ibuf = W ∧ cksum8 W.pay ≠ W.ck then
    let t := s2cChecksum s
    .next (s2cDropClear (raise .s2c (.checksumMismatch (acc .s2c t) W.ck) t))
  else .fault .notEnabled

/-- CF.TX: the output format of S2C.FWD, "the frame S2C.FWD offers to CTX" (spec/30_encoding.md section 4), with the table's
constraints `id == CAN_TX_ID` and `d[i] == IBUF[2+i]`. Its effect is R122's phases 2 and 3, which build that frame and offer it;
DESIGN CHOICE, log 8. Safe: `step` never runs a phase as a step of its own. -/
def execCfTx (id : BitVec 11) (d : Payload) (w : CanWrite) (s : State) : Host.Outcome State Fault Refusal :=
  if s.s2c.st = .proc ∧ cksum8 s.s2c.ibuf.pay = s.s2c.ibuf.ck ∧ s.par.canTxId = id ∧ s.s2c.ibuf.pay = d then
    .next (s2cWrite w (s2cBuild s))
  else .fault .notEnabled

end Sys2Proof.Machine
end

