-- ==== Sys2Proof/Machine/Dispatch.lean ====
section
/-! DEFINITION. The dispatch: one arm per constructor of Instr. -/

namespace Sys2Proof.Machine

def exec (i : Instr) (s : State) : Host.Outcome State Fault Refusal :=
  match i with
  | .s2cFwd W w => Sys2Proof.Machine.execS2cFwd W w s
  | .s2cDrop W => Sys2Proof.Machine.execS2cDrop W s
  | .c2sRecv F => Sys2Proof.Machine.execC2sRecv F s
  | .c2sRderr => Sys2Proof.Machine.execC2sRderr s
  | .sfTx p k => Sys2Proof.Machine.execSfTx p k s
  | .cfTx id d w => Sys2Proof.Machine.execCfTx id d w s
  | .c2sProc k => Sys2Proof.Machine.execC2sProc k s
  | .s2cPoll => Sys2Proof.Machine.execS2cPoll s
  | .s2cCapture => Sys2Proof.Machine.execS2cCapture s
  | .ckSum8 p => Sys2Proof.Machine.execCkSum8 p s
  | .ckClr P => Sys2Proof.Machine.execCkClr P s
  | .ckAdd P b => Sys2Proof.Machine.execCkAdd P b s
  | .envSrxPush b => Sys2Proof.Machine.execEnvSrxPush b s
  | .envCrxPush F => Sys2Proof.Machine.execEnvCrxPush F s
  | .envCrxPusherr => Sys2Proof.Machine.execEnvCrxPusherr s
  | .reset openOk => Sys2Proof.Machine.execReset openOk s

end Sys2Proof.Machine
end

