-- ==== Sys2Proof/Machine/Fetch.lean ====
section
/-! DEFINITION. Which instruction comes next: the turn taken (R56, R180), the step the agent in turn has enabled and the
bytes that select it (R11, R25, R77, R78), and where a word of the opcode table is placed to be run next. -/

namespace Sys2Proof.Machine

/-- The next turn: the first one placed in the schedule; with none placed, a free one (R180; log 1). -/
def takeTurn (s : State) : Turn × State :=
  match s.sched with
  | t :: rest => (t, { s with sched := rest })
  | [] => (Config.freeTurn s.tick, { s with tick := s.tick + 1 })

/-- The bytes of an item of CRXQ. -/
def itemBytes : Item → List Byte
  | .frame F => F.bytes
  | .err => []

/-- C2S's enabled step, the table of spec/41_can_to_serial.md section 2: none while it waits with CRXQ empty or is halted
(R103). -/
def fetchC2s (k : Fin 12) (s : State) : Option (Port × List Byte) :=
  match s.c2s.st with
  | .wait => (crxHead s).map (fun x => (.item, itemBytes x))
  | .proc => some (.c2sProc, [BitVec.ofNat 8 k.val])
  | .halt => none

/-- S2C's enabled step, the table of spec/42_serial_to_can.md section 2: none when it is halted. -/
def fetchS2c (w : CanWrite) (s : State) : Option (Port × List Byte) :=
  match s.s2c.st with
  | .wait => if srxCount s < 11 then some (.s2cPoll, []) else some (.s2cCapture, [])
  | .proc => some (.window w, s.s2c.ibuf.bytes)
  | .halt => none

/-- What the agent in turn does next: a place and the bytes there, or nothing if it has no enabled step. -/
def fetchWord (t : Turn) (s : State) : Option (Port × List Byte) :=
  match t with
  | .c2s k => fetchC2s k s
  | .s2c w => fetchS2c w s
  | .srxPush b => some (.srx, [b])
  | .crxPush F => some (.crx, F.bytes)
  | .crxPushErr => some (.crxErr, [])
  | .reset openOk => some (.reset, [if openOk then 1 else 0])

/-- A word of the table placed where its pipeline finds its next instruction, that pipeline in the state in which it looks
there, and its turn placed first (log 2): a window in IBUF with S2C in PROC, an item at the head of CRXQ with C2S in
WAIT. A word that is no input of the block changes nothing. -/
def placeTableWord (nbits w : Nat) (s : State) : State :=
  match decodeTableWord nbits w with
  | some (.s2cFwd W x) => { s with s2c := { s.s2c with st := .proc, ibuf := W }, sched := .s2c x :: s.sched }
  | some (.s2cDrop W) => { s with s2c := { s.s2c with st := .proc, ibuf := W }, sched := .s2c .ok :: s.sched }
  | some (.c2sRecv F) =>
    { s with c2s := { s.c2s with st := .wait }, crxq := .frame F :: s.crxq, sched := .c2s 11 :: s.sched }
  | some .c2sRderr =>
    { s with c2s := { s.c2s with st := .wait }, crxq := .err :: s.crxq, sched := .c2s 11 :: s.sched }
  | _ => s

end Sys2Proof.Machine
end

