-- ==== Sys2Proof/Machine/Step.lean ====
section
/-! DEFINITION. One step of the block: one turn (R54, R56, R180), without a time (R181; log 12). -/

namespace Sys2Proof.Machine

/-- One turn: the agent in turn runs the instruction its state selects; an agent with no enabled step changes nothing
(R11, R103, R171), and the turn is spent. -/
def step (s : State) : Host.Outcome State Fault Refusal :=
  match fetchWord (takeTurn s).1 (takeTurn s).2 with
  | none => .next (takeTurn s).2
  | some (p, q) =>
    match decode p q with
    | .ok i => exec i (takeTurn s).2
    | .error r => .refused (.undecoded r)

/-- The host's placing of a word of the opcode table (see `placeTableWord`; log 2). -/
def State.withFetchWord (s : State) (nbits w : Nat) : State := placeTableWord nbits w s

end Sys2Proof.Machine
end

