-- ==== Sys2Proof/Safety.lean ====
section
/-! DEFINITION. What counts as a safe run, in the terms the statements use: the actor of an instruction (R10), the
invariants of the state (R19, R24, R26, R76, R140, R149), and runs of several instructions or several turns. -/

namespace Sys2Proof.Machine

/-- The instructions that are steps, or phases of steps, of C2S (R10, R96). -/
def ofC2s : Instr → Bool
  | .c2sRecv _ | .c2sRderr | .c2sProc _ | .sfTx _ _ | .ckClr .c2s | .ckAdd .c2s _ => true
  | .s2cFwd _ _ | .s2cDrop _ | .s2cPoll | .s2cCapture | .cfTx _ _ _ | .ckClr .s2c | .ckAdd .s2c _
  | .ckSum8 _ | .envSrxPush _ | .envCrxPush _ | .envCrxPusherr | .reset _ => false

/-- The instructions that are steps, or phases of steps, of S2C (R10, R96). -/
def ofS2c : Instr → Bool
  | .s2cFwd _ _ | .s2cDrop _ | .s2cPoll | .s2cCapture | .cfTx _ _ _ | .ckClr .s2c | .ckAdd .s2c _ => true
  | .c2sRecv _ | .c2sRderr | .c2sProc _ | .sfTx _ _ | .ckClr .c2s | .ckAdd .c2s _
  | .ckSum8 _ | .envSrxPush _ | .envCrxPush _ | .envCrxPusherr | .reset _ => false

/-- Is it C2S's turn? -/
def turnOfC2s : Turn → Bool
  | .c2s _ => true
  | .s2c _ | .srxPush _ | .crxPush _ | .crxPushErr | .reset _ => false

/-- Is it S2C's turn? -/
def turnOfS2c : Turn → Bool
  | .s2c _ => true
  | .c2s _ | .srxPush _ | .crxPush _ | .crxPushErr | .reset _ => false

/-- Is it a RESET? -/
def turnOfReset : Turn → Bool
  | .reset _ => true
  | .c2s _ | .s2c _ | .srxPush _ | .crxPush _ | .crxPushErr => false

/-- The byte a turn delivers to SRX, if any. -/
def turnByte : Turn → Option Byte
  | .srxPush b => some b
  | .c2s _ | .s2c _ | .crxPush _ | .crxPushErr | .reset _ => none

/-- The item a turn delivers to CRX, if any. -/
def turnItem : Turn → Option Item
  | .crxPush F => some (.frame F)
  | .crxPushErr => some .err
  | .c2s _ | .s2c _ | .srxPush _ | .reset _ => none

/-- The draw of a CAN write a turn carries, if any (R52). -/
def turnWrite : Turn → Option CanWrite
  | .s2c w => some w
  | .c2s _ | .srxPush _ | .crxPush _ | .crxPushErr | .reset _ => none

/-- The frame of an item, if it is one. -/
def itemFrame : Item → Option CanFrame
  | .frame F => some F
  | .err => none

/-- C2S as every step leaves it: OBUF and ACC zero, and CANIN zero unless a received frame is held in PROC (R26; R100: C2S.RECV
writes neither OBUF nor ACC). -/
def quietC2s (s : State) : Prop :=
  s.c2s.obuf = SerialFrame.zero ∧ s.c2s.acc = 0 ∧ (s.c2s.st ≠ .proc → s.c2s.canin = CanFrame.zero)

/-- S2C as every step leaves it: CANOUT and ACC zero, and IBUF zero unless a window is held in PROC (R26; R121 case (g): S2C.CAPTURE
writes neither CANOUT nor ACC). -/
def quietS2c (s : State) : Prop :=
  s.s2c.canout = CanFrame.zero ∧ s.s2c.acc = 0 ∧ (s.s2c.st ≠ .proc → s.s2c.ibuf = SerialFrame.zero)

/-- R26's quiescence, and what the steps leave zero in PROC as well. -/
def Quiescent (s : State) : Prop := quietC2s s ∧ quietS2c s

/-- A STATUS register shows exactly the codes of the events on record (R19, R24): bit `n` is set if and only if an event
of code `n` is present. -/
def flagsMatch (status : BitVec 8) (evt : List Event) : Prop :=
  ∀ n, n < 8 → status.getLsbD n = evt.any (fun e => eventCode e == n)

/-- Both STATUS registers match their records. -/
def StatusMatchesRecord (s : State) : Prop :=
  flagsMatch s.c2s.status s.c2s.evt ∧ flagsMatch s.s2c.status s.s2c.evt

/-- The events each pipeline can raise, with the payloads R140 gives them. -/
def raisable : Pipe → Event → Bool
  | .c2s, .transportOpenError => true
  | .c2s, .transportReadError => true
  | .c2s, .transportWriteError (some k) => decide (k.val ≤ 10)
  | .c2s, .transportWriteError none => false
  | .c2s, .checksumMismatch _ _ => false
  | .c2s, .framingAmbiguity _ => false
  | .s2c, .transportOpenError => true
  | .s2c, .transportReadError => false
  | .s2c, .transportWriteError (some _) => false
  | .s2c, .transportWriteError none => true
  | .s2c, .checksumMismatch c r => decide (c ≠ r)
  | .s2c, .framingAmbiguity m => decide (1 ≤ m)

/-- Every event on record is one its pipeline can raise. -/
def RecordsLegal (s : State) : Prop :=
  (∀ e ∈ s.c2s.evt, raisable .c2s e = true) ∧ (∀ e ∈ s.s2c.evt, raisable .s2c e = true)

/-- Every frame on CTX carries CAN_TX_ID and data length code 8 (R76). -/
def CtxFramesOwn (s : State) : Prop := ∀ F ∈ s.ctx, F.id = s.par.canTxId ∧ F.dlc = 8

/-- A queue of length `n` is within its depth. -/
def withinDepth (depth : Option Nat) (n : Nat) : Prop := ∀ d, depth = some d → n ≤ d

/-- Both receive queues are within their depths (R21, R22). -/
def QueuesWithinDepth (s : State) : Prop :=
  withinDepth s.par.rxqDepth s.srxq.length ∧ withinDepth s.par.crxqDepth s.crxq.length

/-- A failed start and its record (R141, R149): the two pipelines are halted together; a halted pipeline's record is
TransportOpenError alone, and a running pipeline's record has none. -/
def HaltIsOpenError (s : State) : Prop :=
  (s.c2s.st = .halt ↔ s.s2c.st = .halt) ∧
  (s.c2s.st = .halt → s.c2s.evt = [.transportOpenError] ∧ s.s2c.evt = [.transportOpenError]) ∧
  (s.c2s.st ≠ .halt → Event.transportOpenError ∉ s.c2s.evt ∧ Event.transportOpenError ∉ s.s2c.evt)

/-- Every invariant at once. -/
def SafeState (s : State) : Prop :=
  Quiescent s ∧ StatusMatchesRecord s ∧ RecordsLegal s ∧ CtxFramesOwn s ∧ QueuesWithinDepth s ∧ HaltIsOpenError s

/-- Instructions one after the other, stopping at the first fault or refusal. -/
def execAll : List Instr → State → Host.Outcome State Fault Refusal
  | [], s => .next s
  | i :: is, s =>
    match exec i s with
    | .next t => execAll is t
    | .fault r => .fault r
    | .refused r => .refused r

/-- `n` turns, stopping at the first fault or refusal. -/
def runSteps : Nat → State → Host.Outcome State Fault Refusal
  | 0, s => .next s
  | n + 1, s =>
    match step s with
    | .next t => runSteps n t
    | .fault r => .fault r
    | .refused r => .refused r

/-- The weak fairness R180 assumes of the two pipelines, of an endless row of turns: each gets the turn again and again. A
pipeline has at most one enabled step at a time, so one that stays enabled is then taken. -/
def FairTurns (turns : Nat → Turn) : Prop :=
  (∀ n, ∃ m, n ≤ m ∧ turnOfC2s (turns m) = true) ∧ (∀ n, ∃ m, n ≤ m ∧ turnOfS2c (turns m) = true)

/-- The first `n` turns of an endless row, run from a state. -/
def runTurns (turns : Nat → Turn) (n : Nat) (s : State) : Host.Outcome State Fault Refusal :=
  runSteps n { s with sched := (List.range n).map turns }

/-- What the environment delivers to CRXQ in the first `n` turns of an endless row and finds room there (R50). -/
def crxAdded (turns : Nat → Turn) (s : State) (n : Nat) : List Item :=
  (List.range n).filterMap fun i =>
    match runTurns turns i s with
    | .next t => if hasRoom t.par.crxqDepth t.crxq.length then turnItem (turns i) else none
    | .fault _ | .refused _ => none

/-- What the environment delivers to SRXQ in the first `n` turns of an endless row and finds room there (R49). -/
def srxAdded (turns : Nat → Turn) (s : State) (n : Nat) : List Byte :=
  (List.range n).filterMap fun i =>
    match runTurns turns i s with
    | .next t => if hasRoom t.par.rxqDepth t.srxq.length then turnByte (turns i) else none
    | .fault _ | .refused _ => none

/-- One completed S2C cycle (R125): the window captured, the bytes behind it that the capture discarded, and the draw of the
processing step's turn, which only a window whose checksum agrees uses. -/
structure Cycle where
  window  : SerialFrame
  surplus : List Byte
  write   : CanWrite
deriving DecidableEq, Repr

/-- The event of a capture that discards these bytes (R121): none for none. -/
def surplusEvent (X : List Byte) : List Event := if X = [] then [] else [.framingAmbiguity X.length]

end Sys2Proof.Machine
end

