-- ==== Sys2Proof/Certificates/Slice0/Obligations.lean ====
section
/-! DEFINITION. The statements for the provers, each from the rules of spec/ its docstring names. A next state is written out
as a record update, so that what an instruction leaves unchanged stands in the same equation. -/

open Sys2Proof Sys2Proof.Machine

/-! ### CK, spec/40_checksum.md -/

/-- R90: CK.SUM8 writes no state, and its value is the sum of the 8 bytes reduced modulo 256. -/
def Obligations.CkSum8IsTheSumModulo256 : Prop :=
  ∀ (p : Payload) (s : State),
    exec (.ckSum8 p) s = .next s ∧
    (cksum8 p).toNat = (p.b0.toNat + p.b1.toNat + p.b2.toNat + p.b3.toNat
      + p.b4.toNat + p.b5.toNat + p.b6.toNat + p.b7.toNat) % 256

/-- R91 (the instance is R96's): CK.CLR clears the accumulator of its own pipeline and changes nothing else. -/
def Obligations.CkClrClearsItsAccumulator : Prop :=
  ∀ s : State,
    exec (.ckClr .c2s) s = .next { s with c2s := { s.c2s with acc := 0 } } ∧
    exec (.ckClr .s2c) s = .next { s with s2c := { s.s2c with acc := 0 } }

/-- R92 (the instance is R96's): CK.ADD adds its byte to the accumulator of its own pipeline modulo 256 and changes nothing
else. -/
def Obligations.CkAddAddsModulo256 : Prop :=
  ∀ (b : Byte) (s : State),
    (∃ v : Byte, exec (.ckAdd .c2s b) s = .next { s with c2s := { s.c2s with acc := v } } ∧
      v.toNat = (s.c2s.acc.toNat + b.toNat) % 256) ∧
    (∃ v : Byte, exec (.ckAdd .s2c b) s = .next { s with s2c := { s.s2c with acc := v } } ∧
      v.toNat = (s.s2c.acc.toNat + b.toNat) % 256)

/-- R93: CK.CLR and then eight CK.ADD in increasing index leave `cksum8` of the payload in the accumulator, whatever it
held, and change nothing else. -/
def Obligations.AccumulationEndsAtTheChecksum : Prop :=
  ∀ (p : Payload) (s : State),
    execAll [.ckClr .c2s, .ckAdd .c2s p.b0, .ckAdd .c2s p.b1, .ckAdd .c2s p.b2, .ckAdd .c2s p.b3,
        .ckAdd .c2s p.b4, .ckAdd .c2s p.b5, .ckAdd .c2s p.b6, .ckAdd .c2s p.b7] s
      = .next { s with c2s := { s.c2s with acc := cksum8 p } } ∧
    execAll [.ckClr .s2c, .ckAdd .s2c p.b0, .ckAdd .s2c p.b1, .ckAdd .s2c p.b2, .ckAdd .s2c p.b3,
        .ckAdd .s2c p.b4, .ckAdd .s2c p.b5, .ckAdd .s2c p.b6, .ckAdd .s2c p.b7] s
      = .next { s with s2c := { s.s2c with acc := cksum8 p } }

/-- R94 case (d): the checksum is the same for every order of the 8 bytes. -/
def Obligations.ChecksumIgnoresOrder : Prop :=
  ∀ p q : Payload, p.bytes.Perm q.bytes → cksum8 p = cksum8 q

/-- R95 case (a): a window that would be forwarded, with exactly one of the bytes at offsets 2 to 10 changed to a different
value, is dropped. -/
def Obligations.OneChangedByteIsDropped : Prop :=
  ∀ (W : SerialFrame) (i : Nat) (b : Byte) (w : CanWrite),
    cksum8 W.pay = W.ck → 2 ≤ i → i ≤ 10 → W.bytes.getD i 0 ≠ b →
    ∃ V : SerialFrame, V.bytes = W.bytes.set i b ∧ decode (.window w) (W.bytes.set i b) = .ok (.s2cDrop V)

/-- R95 case (c), the three examples the rule names: swapping two payload bytes, adding an amount (the rule: 1) to one payload
byte and subtracting it from another, or adding the same amount to a payload byte and to the checksum, is not detected. -/
def Obligations.CancellingChangesPass : Prop :=
  ∀ (W : SerialFrame) (d : Byte) (w : CanWrite), cksum8 W.pay = W.ck →
    (∀ i j : Nat, 2 ≤ i → i < j → j ≤ 9 →
      ∃ V : SerialFrame, V.bytes = (W.bytes.set i (W.bytes.getD j 0)).set j (W.bytes.getD i 0) ∧
        decode (.window w) V.bytes = .ok (.s2cFwd V w)) ∧
    (∀ i j : Nat, 2 ≤ i → i ≤ 9 → 2 ≤ j → j ≤ 9 → i ≠ j →
      ∃ V : SerialFrame, V.bytes = (W.bytes.set i (W.bytes.getD i 0 + d)).set j (W.bytes.getD j 0 - d) ∧
        decode (.window w) V.bytes = .ok (.s2cFwd V w)) ∧
    (∀ i : Nat, 2 ≤ i → i ≤ 9 →
      ∃ V : SerialFrame, V.bytes = (W.bytes.set i (W.bytes.getD i 0 + d)).set 10 (W.ck + d) ∧
        decode (.window w) V.bytes = .ok (.s2cFwd V w))

/-! ### Input and encodings, spec/30_encoding.md -/

/-- R77: a window is classified by one test; every window is S2C.FWD or S2C.DROP, and for each choice of the other ten bytes
exactly one checksum value makes it S2C.FWD. -/
def Obligations.WindowIsForwardOrDrop : Prop :=
  ∀ (W : SerialFrame) (w : CanWrite),
    (cksum8 W.pay = W.ck → decode (.window w) W.bytes = .ok (.s2cFwd W w)) ∧
    (cksum8 W.pay ≠ W.ck → decode (.window w) W.bytes = .ok (.s2cDrop W)) ∧
    ∃ c : Byte, ∀ c' : Byte,
      decode (.window w) { W with ck := c' }.bytes = .ok (.s2cFwd { W with ck := c' } w) ↔ c' = c

/-- R78: an item of CRXQ is classified by its kind; no field of a frame is examined. -/
def Obligations.ItemIsReceiveOrReadError : Prop :=
  (∀ F : CanFrame, decode .item F.bytes = .ok (.c2sRecv F)) ∧ decode .item [] = .ok .c2sRderr

/-- The decoder undoes the encoder on every well-formed instruction, with every operand at every value. -/
def Obligations.DecodeUndoesEncode : Prop :=
  ∀ i : Instr, i.wf = true → decode (encode i).1 (encode i).2 = .ok i

/-- The other direction: bytes that decode to an instruction are that instruction's encoding. -/
def Obligations.DecodedBytesAreTheEncoding : Prop :=
  ∀ (p : Port) (q : List Byte) (i : Instr), decode p q = .ok i → (encode i).2 = q

/-- Words the spec prints (V20, V30, V70, V72; V73's CF.TX word with identifier 0x100): each decodes to what it stands
for. V30's 88 bits and V72's 79 bits go through `decodeTableWord`; that it reads them as input of the block, a window and an item
of CRXQ, is the model's choice, log 7. -/
def Obligations.PrintedWordsDecode : Prop :=
  decode (.window .ok) [0x24, 0x08, 0xFF, 0, 0, 0, 0, 0, 0, 0, 0xFF]
      = .ok (.s2cFwd ⟨0x24, 0x08, ⟨0xFF, 0, 0, 0, 0, 0, 0, 0⟩, 0xFF⟩ .ok) ∧
  decodeTableWord 88 0x2408010203040506070825
      = some (.s2cDrop ⟨0x24, 0x08, ⟨1, 2, 3, 4, 5, 6, 7, 8⟩, 0x25⟩) ∧
  decode (.stx 11) [0x24, 0x08, 1, 2, 3, 4, 5, 6, 7, 8, 0x24] = .ok (.sfTx ⟨1, 2, 3, 4, 5, 6, 7, 8⟩ 11) ∧
  decodeTableWord 79 0x12380102030405060708 = some (.c2sRecv ⟨0x123, 8, ⟨1, 2, 3, 4, 5, 6, 7, 8⟩⟩) ∧
  decode (.ctx .ok) [0x10, 0x08, 0xFF, 0, 0, 0, 0, 0, 0, 0]
      = .ok (.cfTx 0x100 ⟨0xFF, 0, 0, 0, 0, 0, 0, 0⟩ .ok)

/-- R71, R75: the bit vectors of the table read most significant byte first; the 88-bit vector of a window and the 79-bit
vector of a frame decode to that window's class and to C2S.RECV of that frame. -/
def Obligations.TableVectorsDecode : Prop :=
  (∀ W : SerialFrame, decodeTableWord 88 (natOfBytes W.bytes)
      = some (if cksum8 W.pay = W.ck then .s2cFwd W .ok else .s2cDrop W)) ∧
  (∀ F : CanFrame, decodeTableWord 79
      (((((((((F.id.toNat * 16 + F.dlc.toNat) * 256 + F.data.b0.toNat) * 256 + F.data.b1.toNat) * 256
        + F.data.b2.toNat) * 256 + F.data.b3.toNat) * 256 + F.data.b4.toNat) * 256 + F.data.b5.toNat) * 256
        + F.data.b6.toNat) * 256 + F.data.b7.toNat) = some (.c2sRecv F))

/-! ### One step -/

/-- When the bytes at the place the turn selects decode to an instruction, the step is `exec` of it; around `exec` the step
does one thing, it spends the turn: the first one placed, or with none placed the next free one (the model's form of R180's free
order, log 1). An agent with no enabled step changes nothing (R103, R171). -/
def Obligations.StepRunsTheDecodedInstruction : Prop :=
  ∀ s : State,
    (∀ (p : Port) (q : List Byte) (i : Instr),
      fetchWord (takeTurn s).1 (takeTurn s).2 = some (p, q) → decode p q = .ok i → step s = exec i (takeTurn s).2) ∧
    (fetchWord (takeTurn s).1 (takeTurn s).2 = none → step s = .next (takeTurn s).2) ∧
    (∀ (x : Turn) (r : List Turn), s.sched = x :: r → takeTurn s = (x, { s with sched := r })) ∧
    (s.sched = [] → takeTurn s = (Config.freeTurn s.tick, { s with tick := s.tick + 1 }))

/-- The table of spec/41_can_to_serial.md section 2, and R103: what C2S does when it gets the turn. Idle and halted it changes
no state and raises no event. -/
def Obligations.C2sTurnRunsItsEnabledStep : Prop :=
  ∀ (s : State) (k : Fin 12) (r : List Turn), s.sched = .c2s k :: r →
    (∀ F rest, s.c2s.st = .wait → s.crxq = .frame F :: rest → step s = exec (.c2sRecv F) { s with sched := r }) ∧
    (∀ rest, s.c2s.st = .wait → s.crxq = .err :: rest → step s = exec .c2sRderr { s with sched := r }) ∧
    (s.c2s.st = .wait → s.crxq = [] → step s = .next { s with sched := r }) ∧
    (s.c2s.st = .proc → step s = exec (.c2sProc k) { s with sched := r }) ∧
    (s.c2s.st = .halt → step s = .next { s with sched := r })

/-- The table of spec/42_serial_to_can.md section 2: what S2C does when it gets the turn. -/
def Obligations.S2cTurnRunsItsEnabledStep : Prop :=
  ∀ (s : State) (w : CanWrite) (r : List Turn), s.sched = .s2c w :: r →
    (s.s2c.st = .wait → s.srxq.length < 11 → step s = exec .s2cPoll { s with sched := r }) ∧
    (s.s2c.st = .wait → 11 ≤ s.srxq.length → step s = exec .s2cCapture { s with sched := r }) ∧
    (s.s2c.st = .proc → cksum8 s.s2c.ibuf.pay = s.s2c.ibuf.ck →
      step s = exec (.s2cFwd s.s2c.ibuf w) { s with sched := r }) ∧
    (s.s2c.st = .proc → cksum8 s.s2c.ibuf.pay ≠ s.s2c.ibuf.ck →
      step s = exec (.s2cDrop s.s2c.ibuf) { s with sched := r }) ∧
    (s.s2c.st = .halt → step s = .next { s with sched := r })

/-- R49, R50, R170: the environment's steps are always enabled. -/
def Obligations.EnvironmentTurnRunsItsStep : Prop :=
  ∀ (s : State) (r : List Turn),
    (∀ b, s.sched = .srxPush b :: r → step s = exec (.envSrxPush b) { s with sched := r }) ∧
    (∀ F, s.sched = .crxPush F :: r → step s = exec (.envCrxPush F) { s with sched := r }) ∧
    (s.sched = .crxPushErr :: r → step s = exec .envCrxPusherr { s with sched := r }) ∧
    (∀ ok, s.sched = .reset ok :: r → step s = exec (.reset ok) { s with sched := r })

/-- R11, R79, R172: there is no terminal state and no input that faults: from every state, whatever the turn, a step answers a
next state. That the turn of an idle or halted pipeline, which has no step (R103, R171), answers one too is the model's choice,
log 1. -/
def Obligations.EveryStepAnswersNext : Prop :=
  ∀ s : State, ∃ t : State, step s = .next t

/-! ### C2S, spec/41_can_to_serial.md -/

/-- R100: C2S.RECV. -/
def Obligations.C2sRecvLatchesTheFrame : Prop :=
  ∀ (s : State) (F : CanFrame) (rest : List Item), s.c2s.st = .wait → s.crxq = .frame F :: rest →
    exec (.c2sRecv F) s = .next { s with c2s := { s.c2s with canin := F, st := .proc }, crxq := rest }

/-- R101: C2S.RDERR. -/
def Obligations.C2sRderrRecordsTheReadError : Prop :=
  ∀ (s : State) (rest : List Item), s.c2s.st = .wait → s.crxq = .err :: rest →
    exec .c2sRderr s = .next { s with
      c2s := { s.c2s with status := s.c2s.status ||| 0x04, evt := s.c2s.evt ++ [.transportReadError] }
      crxq := rest }

/-- R102: C2S.PROC, all five phases: a prefix of `24 08`, the 8 data bytes and their checksum goes to STX, a short write is
recorded, everything is cleared. -/
def Obligations.C2sProcPacksWritesAndClears : Prop :=
  ∀ (s : State) (k : Fin 12), s.c2s.st = .proc →
    exec (.c2sProc k) s = .next { s with
      c2s := { st := .wait, canin := ⟨0, 0, ⟨0, 0, 0, 0, 0, 0, 0, 0⟩⟩, obuf := ⟨0, 0, ⟨0, 0, 0, 0, 0, 0, 0, 0⟩, 0⟩, acc := 0,
               status := if k = 11 then s.c2s.status else s.c2s.status ||| 0x08,
               evt := if k = 11 then s.c2s.evt else s.c2s.evt ++ [.transportWriteError (some k)] }
      stx := s.stx ++ [0x24, 0x08, s.c2s.canin.data.b0, s.c2s.canin.data.b1, s.c2s.canin.data.b2,
        s.c2s.canin.data.b3, s.c2s.canin.data.b4, s.c2s.canin.data.b5, s.c2s.canin.data.b6,
        s.c2s.canin.data.b7, cksum8 s.c2s.canin.data].take k.val }

/-- SF.TX, the first four phases of R102 with the layout of R70, R72 to R74: the frame stands in OBUF and a prefix of it on STX. That
the row's effect is these phases is the model's choice, log 8. -/
def Obligations.SfTxBuildsAndOffersTheFrame : Prop :=
  ∀ (s : State) (p : Payload) (k : Fin 12), s.c2s.st = .proc → s.c2s.canin.data = p →
    exec (.sfTx p k) s = .next { s with
      c2s := { s.c2s with
        obuf := ⟨0x24, 0x08, p, cksum8 p⟩, acc := cksum8 p,
        status := if k = 11 then s.c2s.status else s.c2s.status ||| 0x08,
        evt := if k = 11 then s.c2s.evt else s.c2s.evt ++ [.transportWriteError (some k)] }
      stx := s.stx ++ [0x24, 0x08, p.b0, p.b1, p.b2, p.b3, p.b4, p.b5, p.b6, p.b7, cksum8 p].take k.val }

/-- R105: one C2S cycle, from a waiting state with its buffers zero. -/
def Obligations.C2sCycle : Prop :=
  ∀ (s : State) (rest : List Item), s.c2s.st = .wait → quietC2s s →
    (∀ (F : CanFrame) (k : Fin 12), s.crxq = .frame F :: rest →
      execAll [.c2sRecv F, .c2sProc k] s = .next { s with
        c2s := { s.c2s with
          status := if k = 11 then s.c2s.status else s.c2s.status ||| 0x08
          evt := if k = 11 then s.c2s.evt else s.c2s.evt ++ [.transportWriteError (some k)] }
        crxq := rest
        stx := s.stx ++ [0x24, 0x08, F.data.b0, F.data.b1, F.data.b2, F.data.b3, F.data.b4, F.data.b5,
          F.data.b6, F.data.b7, cksum8 F.data].take k.val }) ∧
    (s.crxq = .err :: rest →
      execAll [.c2sRderr] s = .next { s with
        c2s := { s.c2s with status := s.c2s.status ||| 0x04, evt := s.c2s.evt ++ [.transportReadError] }
        crxq := rest })

/-- R102 corner case (a), R178: C2S.PROC reads neither the identifier nor the length code of the frame it holds; two frames with
the same data lead to the same state. -/
def Obligations.C2sProcIgnoresIdAndDlc : Prop :=
  ∀ (s : State) (F G : CanFrame) (k : Fin 12), F.data = G.data →
    exec (.c2sProc k) { s with c2s := { s.c2s with canin := F } }
      = exec (.c2sProc k) { s with c2s := { s.c2s with canin := G } }

/-! ### S2C, spec/42_serial_to_can.md -/

/-- R120: S2C.POLL changes no state at all. -/
def Obligations.S2cPollChangesNothing : Prop :=
  ∀ s : State, s.s2c.st = .wait → s.srxq.length < 11 → exec .s2cPoll s = .next s

/-- R121: S2C.CAPTURE takes the 11 oldest bytes as the window, discards the surplus and records it if there is any. -/
def Obligations.S2cCaptureTakesWindowAndDrains : Prop :=
  ∀ (s : State) (W : SerialFrame) (X : List Byte), s.s2c.st = .wait → s.srxq = W.bytes ++ X →
    exec .s2cCapture s = .next { s with
      s2c := { s.s2c with
        st := .proc, ibuf := W,
        status := if X.length = 0 then s.s2c.status else s.s2c.status ||| 0x20,
        evt := if X.length = 0 then s.s2c.evt else s.s2c.evt ++ [.framingAmbiguity X.length] }
      srxq := [] }

/-- R122: S2C.FWD, all four phases. -/
def Obligations.S2cFwdWritesAndClears : Prop :=
  ∀ (s : State) (W : SerialFrame), s.s2c.st = .proc → s.s2c.ibuf = W → cksum8 W.pay = W.ck →
    exec (.s2cFwd W .ok) s = .next { s with
      s2c := { s.s2c with st := .wait, ibuf := ⟨0, 0, ⟨0, 0, 0, 0, 0, 0, 0, 0⟩, 0⟩, canout := ⟨0, 0, ⟨0, 0, 0, 0, 0, 0, 0, 0⟩⟩, acc := 0 }
      ctx := s.ctx ++ [⟨s.par.canTxId, 8, W.pay⟩] } ∧
    exec (.s2cFwd W .fail) s = .next { s with
      s2c := { st := .wait, ibuf := ⟨0, 0, ⟨0, 0, 0, 0, 0, 0, 0, 0⟩, 0⟩, canout := ⟨0, 0, ⟨0, 0, 0, 0, 0, 0, 0, 0⟩⟩, acc := 0,
               status := s.s2c.status ||| 0x08, evt := s.s2c.evt ++ [.transportWriteError none] } }

/-- R123: S2C.DROP: both checksums recorded, the window and ACC cleared, CANOUT and CTX as they were. -/
def Obligations.S2cDropRecordsAndClears : Prop :=
  ∀ (s : State) (W : SerialFrame), s.s2c.st = .proc → s.s2c.ibuf = W → cksum8 W.pay ≠ W.ck →
    exec (.s2cDrop W) s = .next { s with
      s2c := { s.s2c with
        st := .wait, ibuf := ⟨0, 0, ⟨0, 0, 0, 0, 0, 0, 0, 0⟩, 0⟩, acc := 0,
        status := s.s2c.status ||| 0x10,
        evt := s.s2c.evt ++ [.checksumMismatch (cksum8 W.pay) W.ck] } }

/-- CF.TX, phases 2 and 3 of R122 with the fields of R75, R76: the frame stands in CANOUT and, if the write is accepted, on CTX. That
the row's effect is these phases is the model's choice, log 8. -/
def Obligations.CfTxBuildsAndOffersTheFrame : Prop :=
  ∀ (s : State) (id : BitVec 11) (d : Payload), s.s2c.st = .proc →
    cksum8 s.s2c.ibuf.pay = s.s2c.ibuf.ck → s.par.canTxId = id → s.s2c.ibuf.pay = d →
    exec (.cfTx id d .ok) s = .next { s with
      s2c := { s.s2c with canout := ⟨id, 8, d⟩ }, ctx := s.ctx ++ [⟨id, 8, d⟩] } ∧
    exec (.cfTx id d .fail) s = .next { s with
      s2c := { s.s2c with canout := ⟨id, 8, d⟩, status := s.s2c.status ||| 0x08,
                          evt := s.s2c.evt ++ [.transportWriteError none] } }

/-- R124: the start marker and the length byte are not checked: two windows that agree at offsets 2 to 10 are of one class,
and S2C's processing step leads to the same state from either. -/
def Obligations.HeaderBytesAreNotChecked : Prop :=
  ∀ (s : State) (h l h' l' : Byte) (p : Payload) (c : Byte) (w : CanWrite),
    (∃ i i' : Instr,
      decode (.window w) (SerialFrame.mk h l p c).bytes = .ok i ∧
      decode (.window w) (SerialFrame.mk h' l' p c).bytes = .ok i' ∧
      (i = .s2cFwd ⟨h, l, p, c⟩ w ↔ i' = .s2cFwd ⟨h', l', p, c⟩ w) ∧
      exec i { s with s2c := { s.s2c with st := .proc, ibuf := ⟨h, l, p, c⟩ } }
        = exec i' { s with s2c := { s.s2c with st := .proc, ibuf := ⟨h', l', p, c⟩ } })

/-- R125: one S2C cycle, with any bytes the environment pushes between the capture and the processing step; they are what
SRXQ holds at the end; the flags set are those of the events (R19). -/
def Obligations.S2cCycle : Prop :=
  ∀ (s : State) (W : SerialFrame) (X bs : List Byte) (v w : CanWrite) (r : List Turn),
    s.s2c.st = .wait → quietS2c s → s.srxq = W.bytes ++ X → withinDepth s.par.rxqDepth bs.length →
    s.sched = .s2c v :: (bs.map .srxPush ++ .s2c w :: r) →
    ∃ t : State, runSteps (bs.length + 2) s = .next t ∧
      t.s2c.st = .wait ∧ quietS2c t ∧ t.srxq = bs ∧
      t.ctx = s.ctx ++ (if cksum8 W.pay = W.ck ∧ w = .ok then [⟨s.par.canTxId, 8, W.pay⟩] else []) ∧
      t.s2c.evt = s.s2c.evt ++ (if X = [] then [] else [.framingAmbiguity X.length]) ++
        (if cksum8 W.pay ≠ W.ck then [.checksumMismatch (cksum8 W.pay) W.ck]
         else if w = .fail then [.transportWriteError none] else []) ∧
      t.s2c.status = s.s2c.status ||| (if X = [] then 0x00 else 0x20) |||
        (if cksum8 W.pay ≠ W.ck then 0x10 else if w = .fail then 0x08 else 0x00) ∧
      t.c2s = s.c2s ∧ t.crxq = s.crxq ∧ t.stx = s.stx ∧ t.par = s.par ∧ t.sched = r

/-- R126: a payload packed by C2S, carried unchanged and aligned to SRXQ, comes out of S2C as it went in, under CAN_TX_ID and
length code 8. -/
def Obligations.RoundTrip : Prop :=
  ∀ F : CanFrame, ∃ S : List Byte, S.length = 11 ∧
    ∀ (s : State) (rest : List Item) (j : Fin 12) (v : CanWrite) (r : List Turn),
      s.c2s.st = .wait → s.s2c.st = .wait → s.crxq = .frame F :: rest → s.srxq = [] →
      withinDepth s.par.rxqDepth 11 →
      s.sched = .c2s j :: .c2s 11 :: (S.map .srxPush ++ .s2c v :: .s2c .ok :: r) →
      ∃ t : State, runSteps 15 s = .next t ∧ t.stx = s.stx ++ S ∧
        t.ctx = s.ctx ++ [⟨s.par.canTxId, 8, F.data⟩]

/-! ### The environment, spec/20_memory.md section 5 -/

/-- R49: a byte is appended to SRXQ while it has room, and lost without a trace when it is full. -/
def Obligations.SrxPushAppendsOrLoses : Prop :=
  ∀ (s : State) (b : Byte),
    (s.par.rxqDepth = none → exec (.envSrxPush b) s = .next { s with srxq := s.srxq ++ [b] }) ∧
    (∀ d, s.par.rxqDepth = some d → s.srxq.length < d →
      exec (.envSrxPush b) s = .next { s with srxq := s.srxq ++ [b] }) ∧
    (∀ d, s.par.rxqDepth = some d → d ≤ s.srxq.length → exec (.envSrxPush b) s = .next s)

/-- R50: an item is appended to CRXQ while it has room, and lost without a trace when it is full; no field of a frame is
examined. R50 gives the push for a length code of at most 8; that a code of 9 to 15 is taken like any other is the model's,
log 10. -/
def Obligations.CrxPushAppendsOrLoses : Prop :=
  ∀ (s : State) (F : CanFrame),
    ((s.par.crxqDepth = none ∨ ∃ d, s.par.crxqDepth = some d ∧ s.crxq.length < d) →
      exec (.envCrxPush F) s = .next { s with crxq := s.crxq ++ [.frame F] } ∧
      exec .envCrxPusherr s = .next { s with crxq := s.crxq ++ [.err] }) ∧
    (∀ d, s.par.crxqDepth = some d → d ≤ s.crxq.length →
      exec (.envCrxPush F) s = .next s ∧ exec .envCrxPusherr s = .next s)

/-! ### Reset, spec/70_reset_and_hazards.md -/

/-- R170 with the table of R27: RESET puts every piece of state at its value there, from any state and for either value of
OPEN_OK; the parameters keep theirs. What becomes of the turns still to come is no part of the block's state. -/
def Obligations.ResetSetsEveryPieceOfState : Prop :=
  ∀ (s : State) (openOk : Bool), ∃ (r : List Turn) (n : Nat), exec (.reset openOk) s = .next
    { c2s := { st := if openOk then .wait else .halt
               canin := ⟨0, 0, ⟨0, 0, 0, 0, 0, 0, 0, 0⟩⟩, obuf := ⟨0, 0, ⟨0, 0, 0, 0, 0, 0, 0, 0⟩, 0⟩, acc := 0
               status := if openOk then 0x00 else 0x02
               evt := if openOk then [] else [.transportOpenError] }
      s2c := { st := if openOk then .wait else .halt
               ibuf := ⟨0, 0, ⟨0, 0, 0, 0, 0, 0, 0, 0⟩, 0⟩, canout := ⟨0, 0, ⟨0, 0, 0, 0, 0, 0, 0, 0⟩⟩, acc := 0
               status := if openOk then 0x00 else 0x02
               evt := if openOk then [] else [.transportOpenError] }
      srxq := [], crxq := [], stx := [], ctx := []
      par := s.par, sched := r, tick := n }

/-- R171: after RESET with OPEN_OK false, through any turns without another RESET, both pipelines stay in HALT with
TransportOpenError raised, nothing is sent, and what the environment pushes fills the queues (unbounded here) and is not
consumed. -/
def Obligations.OpenFailureHaltsUntilReset : Prop :=
  ∀ (s : State) (ts r : List Turn), s.par.rxqDepth = none → s.par.crxqDepth = none →
    s.sched = .reset false :: (ts ++ r) → (∀ x ∈ ts, turnOfReset x = false) →
    ∃ t : State, runSteps (ts.length + 1) s = .next t ∧
      t.c2s.st = .halt ∧ t.s2c.st = .halt ∧ t.c2s.evt = [.transportOpenError] ∧ t.s2c.evt = [.transportOpenError] ∧
      t.c2s.status = 0x02 ∧ t.s2c.status = 0x02 ∧ t.stx = [] ∧ t.ctx = [] ∧
      t.srxq = ts.filterMap turnByte ∧ t.crxq = ts.filterMap turnItem ∧ t.sched = r

/-- R27, third column: the state the machine starts in. -/
def Obligations.ResetStateValues : Prop :=
  State.reset.c2s = ⟨.wait, ⟨0, 0, ⟨0, 0, 0, 0, 0, 0, 0, 0⟩⟩, ⟨0, 0, ⟨0, 0, 0, 0, 0, 0, 0, 0⟩, 0⟩, 0, 0x00, []⟩ ∧
  State.reset.s2c = ⟨.wait, ⟨0, 0, ⟨0, 0, 0, 0, 0, 0, 0, 0⟩, 0⟩, ⟨0, 0, ⟨0, 0, 0, 0, 0, 0, 0, 0⟩⟩, 0, 0x00, []⟩ ∧
  State.reset.srxq = [] ∧ State.reset.crxq = [] ∧ State.reset.stx = [] ∧ State.reset.ctx = [] ∧
  State.reset.par.canTxId = Config.canTxId

/-! ### Events, spec/60_exceptions.md -/

/-- R146: what raising does, for every event its pipeline can raise: the record grows by the event and bit `code` of STATUS is
set; nothing else changes. -/
def Obligations.RaiseRecordsAndFlags : Prop :=
  ∀ (e : Event) (s : State),
    (raisable .c2s e = true → raise .c2s e s
      = { s with c2s := { s.c2s with status := s.c2s.status ||| (1#8 <<< eventCode e), evt := s.c2s.evt ++ [e] } }) ∧
    (raisable .s2c e = true → raise .s2c e s
      = { s with s2c := { s.s2c with status := s.s2c.status ||| (1#8 <<< eventCode e), evt := s.s2c.evt ++ [e] } })

/-- R150, R147: after a step that raises an event other than TransportOpenError and FramingAmbiguity the raising pipeline
waits with all its buffers and its ACC zero, and the other pipeline is untouched; after FramingAmbiguity S2C is in PROC with the
11 oldest bytes in IBUF. -/
def Obligations.StateAfterAnError : Prop :=
  ∀ (s t : State) (e : Event), Quiescent s → turnOfReset (takeTurn s).1 = false → step s = .next t →
    (t.c2s.evt = s.c2s.evt ++ [e] →
      t.c2s.st = .wait ∧ t.c2s.canin = CanFrame.zero ∧ t.c2s.obuf = SerialFrame.zero ∧ t.c2s.acc = 0 ∧ t.s2c = s.s2c) ∧
    (t.s2c.evt = s.s2c.evt ++ [e] → eventCode e ≠ 5 →
      t.s2c.st = .wait ∧ t.s2c.ibuf = SerialFrame.zero ∧ t.s2c.canout = CanFrame.zero ∧ t.s2c.acc = 0 ∧ t.c2s = s.c2s) ∧
    (t.s2c.evt = s.s2c.evt ++ [e] → eventCode e = 5 →
      t.s2c.st = .proc ∧ t.s2c.ibuf.bytes = s.srxq.take 11 ∧ e = .framingAmbiguity (s.srxq.length - 11) ∧ t.c2s = s.c2s)

/-! ### The whole block -/

/-- R11: how the two state registers move in one step. -/
def Obligations.StateRegistersMove : Prop :=
  ∀ s t : State, step s = .next t →
    (turnOfReset (takeTurn s).1 = false →
      (t.c2s.st = s.c2s.st ∨ (s.c2s.st = .wait ∧ t.c2s.st = .proc) ∨ (s.c2s.st = .proc ∧ t.c2s.st = .wait)) ∧
      (t.s2c.st = s.s2c.st ∨ (s.s2c.st = .wait ∧ t.s2c.st = .proc) ∨ (s.s2c.st = .proc ∧ t.s2c.st = .wait))) ∧
    (turnOfC2s (takeTurn s).1 = true → s.c2s.st = .proc → t.c2s.st = .wait) ∧
    (turnOfS2c (takeTurn s).1 = true → s.s2c.st = .proc → t.s2c.st = .wait) ∧
    (∀ ok, (takeTurn s).1 = .reset ok →
      t.c2s.st = (if ok then .wait else .halt) ∧ t.s2c.st = (if ok then .wait else .halt))

/-- R10, the frame of every instruction of a pipeline: C2S's leave S2C, SRXQ and CTX unchanged, S2C's leave C2S, CRXQ and STX unchanged,
and neither touches the parameters or the turns to come. -/
def Obligations.PipelinesTouchOnlyTheirOwn : Prop :=
  ∀ (i : Instr) (s t : State), exec i s = .next t →
    (ofC2s i = true → t.s2c = s.s2c ∧ t.srxq = s.srxq ∧ t.ctx = s.ctx ∧ t.par = s.par ∧
      t.sched = s.sched ∧ t.tick = s.tick) ∧
    (ofS2c i = true → t.c2s = s.c2s ∧ t.crxq = s.crxq ∧ t.stx = s.stx ∧ t.par = s.par ∧
      t.sched = s.sched ∧ t.tick = s.tick)

/-- R10, what a pipeline can learn: a C2S instruction does the same to C2S, CRXQ and STX whatever the rest of the state holds, an S2C
instruction the same to S2C, SRXQ and CTX whatever holds outside these and the parameters. -/
def Obligations.PipelinesReadOnlyTheirOwn : Prop :=
  ∀ (i : Instr) (s s' t : State), exec i s = .next t →
    (ofC2s i = true → s'.c2s = s.c2s → s'.crxq = s.crxq → s'.stx = s.stx →
      ∃ t', exec i s' = .next t' ∧ t'.c2s = t.c2s ∧ t'.crxq = t.crxq ∧ t'.stx = t.stx) ∧
    (ofS2c i = true → s'.s2c = s.s2c → s'.srxq = s.srxq → s'.ctx = s.ctx → s'.par = s.par →
      ∃ t', exec i s' = .next t' ∧ t'.s2c = t.s2c ∧ t'.srxq = t.srxq ∧ t'.ctx = t.ctx)

/-- R56: every interleaving of a C2S step with an S2C step commutes. -/
def Obligations.PipelineStepsCommute : Prop :=
  ∀ (i j : Instr) (s a b : State), ofC2s i = true → ofS2c j = true →
    exec i s = .next a → exec j s = .next b →
    ∃ t : State, exec j a = .next t ∧ exec i b = .next t

/-- R19, R24 (no step reads STATUS or EVT), R28: two states that differ only in STATUS and EVT stay so in every step, so the
flags never influence behaviour. -/
def Obligations.FlagsNeverInfluence : Prop :=
  ∀ (s t : State) (f g : BitVec 8) (l m : List Event), step s = .next t →
    ∃ t' : State,
      step { s with c2s := { s.c2s with status := f, evt := l }, s2c := { s.s2c with status := g, evt := m } } = .next t' ∧
      { t' with c2s := { t'.c2s with status := t.c2s.status, evt := t.c2s.evt },
                s2c := { t'.s2c with status := t.s2c.status, evt := t.s2c.evt } } = t

/-- R20, R27: CAN_TX_ID and the queue depths never change. -/
def Obligations.ParametersNeverChange : Prop :=
  ∀ (i : Instr) (s t : State), exec i s = .next t → t.par = s.par

/-- R23: between resets STX, CTX and both records only grow; one step appends at most 11 bytes to STX and at most one frame
to CTX. -/
def Obligations.RecordsOnlyGrow : Prop :=
  ∀ s t : State, turnOfReset (takeTurn s).1 = false → step s = .next t →
    s.stx <+: t.stx ∧ s.ctx <+: t.ctx ∧ s.c2s.evt <+: t.c2s.evt ∧ s.s2c.evt <+: t.s2c.evt ∧
    t.stx.length ≤ s.stx.length + 11 ∧ t.ctx.length ≤ s.ctx.length + 1

/-- R176, R120: while S2C waits with fewer than 11 bytes, a step that neither delivers a byte nor resets leaves SRXQ and S2C as
they are. -/
def Obligations.FragmentIsNeverDiscarded : Prop :=
  ∀ s t : State, s.s2c.st = .wait → s.srxq.length < 11 →
    turnByte (takeTurn s).1 = none → turnOfReset (takeTurn s).1 = false → step s = .next t →
    t.srxq = s.srxq ∧ t.s2c = s.s2c

/-! ### Invariants every step keeps -/

/-- R26: quiescence, from every state that has it. `Quiescent` says R26 and, so that it is kept, that OBUF, CANOUT and both ACC are
zero between steps in PROC as well. -/
def Obligations.QuiescenceIsKept : Prop :=
  ∀ s t : State, Quiescent s → step s = .next t → Quiescent t

/-- R19, R24: STATUS bit `n` of a pipeline is 1 exactly when its EVT holds an event of code `n`, in both pipelines. -/
def Obligations.StatusMatchesRecordIsKept : Prop :=
  ∀ s t : State, StatusMatchesRecord s → step s = .next t → StatusMatchesRecord t

/-- R140: every event on record is one its pipeline can raise, with the payload the table gives it. -/
def Obligations.RecordsLegalIsKept : Prop :=
  ∀ s t : State, RecordsLegal s → step s = .next t → RecordsLegal t

/-- R76: every frame on CTX has identifier CAN_TX_ID and data length code 8. -/
def Obligations.CtxFramesOwnIsKept : Prop :=
  ∀ s t : State, CtxFramesOwn s → step s = .next t → CtxFramesOwn t

/-- R49, R50: neither receive queue outgrows its depth. -/
def Obligations.QueuesWithinDepthIsKept : Prop :=
  ∀ s t : State, QueuesWithinDepth s → step s = .next t → QueuesWithinDepth t

/-- R141, R149: both pipelines are halted or neither; a halted one's record is TransportOpenError alone, a running one's has
none. -/
def Obligations.HaltIsOpenErrorIsKept : Prop :=
  ∀ s t : State, HaltIsOpenError s → step s = .next t → HaltIsOpenError t

/-- All these invariants hold in the state after reset. -/
def Obligations.ResetIsSafe : Prop := SafeState State.reset

/-! ### Runs -/

/-- R55, R183 with an unbounded CRXQ: over any run without RESET that starts with C2S waiting, C2S takes the items in the order they
were delivered, and STX grows by one prefix of the frame built from each frame taken and processed, in that order; none is
skipped. -/
def Obligations.StxCarriesTheFramesInOrder : Prop :=
  ∀ (s : State) (ts r : List Turn), s.c2s.st = .wait → s.par.crxqDepth = none → s.sched = ts ++ r →
    (∀ x ∈ ts, turnOfReset x = false) →
    ∃ (t : State) (taken : List Item) (done : List CanFrame) (ks : List (Fin 12)),
      runSteps ts.length s = .next t ∧
      s.crxq ++ ts.filterMap turnItem = taken ++ t.crxq ∧
      taken.filterMap itemFrame = done ++ (if t.c2s.st = .proc then [t.c2s.canin] else []) ∧
      ks.length = done.length ∧
      t.stx = s.stx ++ (List.zipWith (fun F k =>
        [0x24, 0x08, F.data.b0, F.data.b1, F.data.b2, F.data.b3, F.data.b4, F.data.b5, F.data.b6, F.data.b7,
          cksum8 F.data].take k.val) done (ks : List (Fin 12))).flatten

/-- R55, R125, R46, R149 with an unbounded SRXQ: over any run without RESET that starts with S2C waiting, the received stream is the
windows captured and their surpluses, in order, and what still stands in SRXQ; CTX grows by one frame for each window processed
whose checksum agreed and whose write drew OK, in the order of the windows and for each at most once, with CAN_TX_ID, length code 8
and the data at the window's offsets 2 to 9; and S2C's record grows by the events of each cycle in order, so a window whose
checksum agreed and that sent nothing is on record as a failed write. -/
def Obligations.CtxFramesComeFromTheStream : Prop :=
  ∀ (s : State) (ts r : List Turn), s.s2c.st = .wait → s.par.rxqDepth = none → s.sched = ts ++ r →
    (∀ x ∈ ts, turnOfReset x = false) →
    ∃ (t : State) (done : List Cycle) (held : List (SerialFrame × List Byte)),
      runSteps ts.length s = .next t ∧
      s.srxq ++ ts.filterMap turnByte =
        (done.flatMap fun c => c.window.bytes ++ c.surplus) ++ (held.flatMap fun h => h.1.bytes ++ h.2) ++ t.srxq ∧
      held.map Prod.fst = (if t.s2c.st = .proc then [t.s2c.ibuf] else []) ∧
      (done.map Cycle.write).Sublist (ts.filterMap turnWrite) ∧
      t.ctx = s.ctx ++ (done.flatMap fun c =>
        if cksum8 c.window.pay = c.window.ck ∧ c.write = .ok then [⟨s.par.canTxId, 8, c.window.pay⟩] else []) ∧
      t.s2c.evt = s.s2c.evt ++ (done.flatMap fun c => surplusEvent c.surplus ++
          (if cksum8 c.window.pay ≠ c.window.ck then [.checksumMismatch (cksum8 c.window.pay) c.window.ck]
           else if c.write = .fail then [.transportWriteError none] else [])) ++
        (held.flatMap fun h => surplusEvent h.2)

/-- R180, R100: a frame at the head of CRXQ stays there, and C2S.RECV stays enabled, through any turns of the others without RESET; at
C2S's turn it is the frame latched, and behind the rest of CRXQ stands what was delivered meanwhile: all of it if CRXQ is unbounded,
else what found room, in order. -/
def Obligations.WaitingFrameIsTakenAtTheTurn : Prop :=
  ∀ (s : State) (F : CanFrame) (rest : List Item) (ts r : List Turn) (k : Fin 12),
    s.c2s.st = .wait → s.crxq = .frame F :: rest → s.sched = ts ++ .c2s k :: r →
    (∀ x ∈ ts, turnOfC2s x = false ∧ turnOfReset x = false) →
    ∃ (t : State) (more : List Item), runSteps (ts.length + 1) s = .next t ∧
      t.c2s = { s.c2s with canin := F, st := .proc } ∧ t.crxq = rest ++ more ∧
      more.Sublist (ts.filterMap turnItem) ∧ (s.par.crxqDepth = none → more = ts.filterMap turnItem) ∧
      t.stx = s.stx ∧ t.sched = r

/-- R180, R121 case (e): once 11 bytes stand in SRXQ the window is fixed: through any turns of the others without RESET, S2C's turn
captures those 11 bytes, and every byte behind them, those delivered meanwhile too, is lost and counted. -/
def Obligations.CaptureTakesTheOldestElevenBytes : Prop :=
  ∀ (s : State) (W : SerialFrame) (X : List Byte) (ts r : List Turn) (w : CanWrite),
    s.s2c.st = .wait → s.srxq = W.bytes ++ X → s.par.rxqDepth = none → s.sched = ts ++ .s2c w :: r →
    (∀ x ∈ ts, turnOfS2c x = false ∧ turnOfReset x = false) →
    ∃ t : State, runSteps (ts.length + 1) s = .next t ∧
      t.s2c.st = .proc ∧ t.s2c.ibuf = W ∧ t.srxq = [] ∧ t.ctx = s.ctx ∧
      t.s2c.evt = s.s2c.evt ++ (if (X ++ ts.filterMap turnByte).length = 0 then []
        else [.framingAmbiguity (X ++ ts.filterMap turnByte).length]) ∧ t.sched = r

/-- R180: under its weak fairness and without RESET, a CAN frame in CRXQ is eventually converted, whatever stands before it and
whatever the environment does: that frame and no other of equal value, since what stands in CRXQ while it is held is what stood
behind it and what was added since. And once 11 bytes stand in SRXQ while S2C waits, they are eventually captured, with nothing sent
and no other event before. -/
def Obligations.FairRunsConvertAndCapture : Prop :=
  ∀ (s : State) (turns : Nat → Turn), FairTurns turns → (∀ n, turnOfReset (turns n) = false) →
    (∀ (before after : List Item) (F : CanFrame), s.c2s.st ≠ .halt → s.crxq = before ++ .frame F :: after →
      ∃ (n : Nat) (k : Fin 12) (t u : State), turns n = .c2s k ∧
        runTurns turns n s = .next t ∧ t.c2s.st = .proc ∧ t.c2s.canin = F ∧ t.crxq = after ++ crxAdded turns s n ∧
        runTurns turns (n + 1) s = .next u ∧ u.c2s.st = .wait ∧ u.crxq = t.crxq ∧
        u.stx = t.stx ++ [0x24, 0x08, F.data.b0, F.data.b1, F.data.b2, F.data.b3, F.data.b4, F.data.b5, F.data.b6,
          F.data.b7, cksum8 F.data].take k.val) ∧
    (s.s2c.st = .wait → 11 ≤ s.srxq.length →
      ∃ (n : Nat) (t : State), runTurns turns n s = .next t ∧ t.s2c.st = .proc ∧ t.s2c.ibuf.bytes = s.srxq.take 11 ∧
        t.srxq = [] ∧ t.ctx = s.ctx ∧ t.s2c.evt = s.s2c.evt ++ surplusEvent (s.srxq.drop 11 ++ srxAdded turns s n))

/-! ### Stops -/

/-- R11, R54: a step that is not enabled cannot happen; asked for one, `exec` answers the fault `notEnabled`, the model's name for that
(log 6), and it faults in no other case. -/
def Obligations.OnlyDisabledStepsFault : Prop :=
  ∀ (i : Instr) (s : State) (f : Fault), exec i s = .fault f ↔
    f = .notEnabled ∧
    ((∃ F, i = .c2sRecv F ∧ ¬ (s.c2s.st = .wait ∧ ∃ rest, s.crxq = .frame F :: rest)) ∨
     (i = .c2sRderr ∧ ¬ (s.c2s.st = .wait ∧ ∃ rest, s.crxq = .err :: rest)) ∨
     ((∃ k, i = .c2sProc k) ∧ s.c2s.st ≠ .proc) ∨
     (∃ p k, i = .sfTx p k ∧ ¬ (s.c2s.st = .proc ∧ s.c2s.canin.data = p)) ∨
     (i = .s2cPoll ∧ ¬ (s.s2c.st = .wait ∧ s.srxq.length < 11)) ∨
     (i = .s2cCapture ∧ ¬ (s.s2c.st = .wait ∧ 11 ≤ s.srxq.length)) ∨
     (∃ W w, i = .s2cFwd W w ∧ ¬ (s.s2c.st = .proc ∧ s.s2c.ibuf = W ∧ cksum8 W.pay = W.ck)) ∨
     (∃ W, i = .s2cDrop W ∧ ¬ (s.s2c.st = .proc ∧ s.s2c.ibuf = W ∧ cksum8 W.pay ≠ W.ck)) ∨
     (∃ id d w, i = .cfTx id d w ∧ ¬ (s.s2c.st = .proc ∧ cksum8 s.s2c.ibuf.pay = s.s2c.ibuf.ck ∧
        s.par.canTxId = id ∧ s.s2c.ibuf.pay = d)))
end

