-- ==== Sys2Proof/Laws/Bytes.lean ====
section
/-! SUPPORT. Frames and their bytes: reading back what was written, the window at the head of a queue, and CK's sum as
addition of bytes. -/

namespace Sys2Proof

@[simp] theorem Payload.bytes_length (p : Payload) : p.bytes.length = 8 := rfl
@[simp] theorem SerialFrame.bytes_length (f : SerialFrame) : f.bytes.length = 11 := rfl
@[simp] theorem CanFrame.bytes_length (F : CanFrame) : F.bytes.length = 10 := rfl

@[simp] theorem Payload.ofBytes_bytes (p : Payload) : Payload.ofBytes p.bytes = .ok p := rfl
@[simp] theorem SerialFrame.ofBytes_bytes (f : SerialFrame) : SerialFrame.ofBytes f.bytes = .ok f := rfl

/-- The high part of two bit strings put together. -/
theorem extract_high {m n : Nat} (x : BitVec m) (y : BitVec n) : (x ++ y).extractLsb' n m = x := by
  ext i hi
  simp [BitVec.getLsbD_append, hi]

/-- The low part of two bit strings put together. -/
theorem extract_low {m n : Nat} (x : BitVec m) (y : BitVec n) : (x ++ y).extractLsb' 0 n = y := by
  ext i hi
  simp [BitVec.getLsbD_append, hi]

/-- A bit string is its high part and its low part. -/
theorem join_parts {m n : Nat} (x : BitVec (m + n)) : x.extractLsb' n m ++ x.extractLsb' 0 n = x := by
  ext i hi
  simp only [BitVec.getElem_append, BitVec.getElem_extractLsb']
  split
  · simp [BitVec.getLsbD_eq_getElem hi]
  · next h => simp [show n + (i - n) = i by omega, BitVec.getLsbD_eq_getElem hi]

/-- An identifier is its upper 7 and its lower 4 bits. -/
theorem join_id (id : BitVec 11) : id.extractLsb' 4 7 ++ id.extractLsb' 0 4 = id := join_parts (m := 7) (n := 4) id

@[simp] theorem CanFrame.ofBytes_bytes (F : CanFrame) : CanFrame.ofBytes F.bytes = .ok F := by
  obtain ⟨id, dlc, d⟩ := F
  have stray := extract_high (0 : BitVec 1) (id.extractLsb' 4 7)
  have hHigh := extract_low (0 : BitVec 1) (id.extractLsb' 4 7)
  have hLow := extract_high (id.extractLsb' 0 4) dlc
  have hDlc := extract_low (id.extractLsb' 0 4) dlc
  simp only [CanFrame.bytes, Payload.bytes, CanFrame.ofBytes]
  rw [if_pos stray]
  refine congrArg Except.ok ?_
  rw [CanFrame.mk.injEq]
  exact ⟨(congrArg₂ _ hHigh hLow).trans (join_id id), hDlc, rfl⟩

/-- The window of a queue that begins with a frame's bytes is that frame. -/
@[simp] theorem SerialFrame.window_bytes_append (W : SerialFrame) (X : List Byte) :
    SerialFrame.window (W.bytes ++ X) = W := rfl

@[simp] theorem SerialFrame.window_bytes_self (W : SerialFrame) : SerialFrame.window W.bytes = W := rfl

@[simp] theorem SerialFrame.drop_bytes_append (W : SerialFrame) (X : List Byte) : (W.bytes ++ X).drop 11 = X := rfl

/-- A queue of 11 bytes or more is its window's bytes and the rest. -/
theorem SerialFrame.window_bytes (q : List Byte) (h : 11 ≤ q.length) :
    (SerialFrame.window q).bytes ++ q.drop 11 = q := by
  match q, h with
  | _ :: _ :: _ :: _ :: _ :: _ :: _ :: _ :: _ :: _ :: _ :: _, _ => rfl

/-- R92's nine-bit sum is addition of bytes. -/
theorem ckSum_eq_add (a b : Byte) : ckSum a b = a + b := by
  apply BitVec.eq_of_toNat_eq
  simp only [ckSum, BitVec.extractLsb'_toNat, BitVec.toNat_add, BitVec.toNat_setWidth, Nat.shiftRight_zero]
  omega

/-- R90's checksum is the sum of the bytes as bytes. -/
theorem cksum8_eq_add (p : Payload) :
    cksum8 p = p.b0 + p.b1 + p.b2 + p.b3 + p.b4 + p.b5 + p.b6 + p.b7 := by
  apply BitVec.eq_of_toNat_eq
  simp only [cksum8, BitVec.toNat_ofNat, BitVec.toNat_add]
  omega

end Sys2Proof
end

