-- ==== Sys2Proof/Laws/State.lean ====
section
/-! SUPPORT. The fields of the state under each shared operation, by rfl: what it writes and what it leaves. -/

namespace Sys2Proof.Machine

variable (P : Pipe) (e : Event) (v b : Byte) (k : Fin 12) (f : SerialFrame) (F : CanFrame) (s : State)

/-! raise -/

@[simp] theorem raise_c2s_c2s : (raise .c2s e s).c2s
    = { s.c2s with status := setFlag .c2s e s.c2s.status, evt := s.c2s.evt ++ [e] } := rfl
@[simp] theorem raise_c2s_s2c : (raise .c2s e s).s2c = s.s2c := rfl
@[simp] theorem raise_s2c_s2c : (raise .s2c e s).s2c
    = { s.s2c with status := setFlag .s2c e s.s2c.status, evt := s.s2c.evt ++ [e] } := rfl
@[simp] theorem raise_s2c_c2s : (raise .s2c e s).c2s = s.c2s := rfl
@[simp] theorem raise_srxq : (raise P e s).srxq = s.srxq := by cases P <;> rfl
@[simp] theorem raise_crxq : (raise P e s).crxq = s.crxq := by cases P <;> rfl
@[simp] theorem raise_stx : (raise P e s).stx = s.stx := by cases P <;> rfl
@[simp] theorem raise_ctx : (raise P e s).ctx = s.ctx := by cases P <;> rfl
@[simp] theorem raise_par : (raise P e s).par = s.par := by cases P <;> rfl
@[simp] theorem raise_sched : (raise P e s).sched = s.sched := by cases P <;> rfl
@[simp] theorem raise_tick : (raise P e s).tick = s.tick := by cases P <;> rfl

/-! setAcc -/

@[simp] theorem acc_setAcc : acc P (setAcc P v s) = v := by cases P <;> rfl
@[simp] theorem setAcc_setAcc (w : Byte) : setAcc P w (setAcc P v s) = setAcc P w s := by cases P <;> rfl
@[simp] theorem setAcc_c2s_c2s : (setAcc .c2s v s).c2s = { s.c2s with acc := v } := rfl
@[simp] theorem setAcc_c2s_s2c : (setAcc .c2s v s).s2c = s.s2c := rfl
@[simp] theorem setAcc_s2c_s2c : (setAcc .s2c v s).s2c = { s.s2c with acc := v } := rfl
@[simp] theorem setAcc_s2c_c2s : (setAcc .s2c v s).c2s = s.c2s := rfl
@[simp] theorem setAcc_srxq : (setAcc P v s).srxq = s.srxq := by cases P <;> rfl
@[simp] theorem setAcc_crxq : (setAcc P v s).crxq = s.crxq := by cases P <;> rfl
@[simp] theorem setAcc_stx : (setAcc P v s).stx = s.stx := by cases P <;> rfl
@[simp] theorem setAcc_ctx : (setAcc P v s).ctx = s.ctx := by cases P <;> rfl
@[simp] theorem setAcc_par : (setAcc P v s).par = s.par := by cases P <;> rfl
@[simp] theorem setAcc_sched : (setAcc P v s).sched = s.sched := by cases P <;> rfl
@[simp] theorem setAcc_tick : (setAcc P v s).tick = s.tick := by cases P <;> rfl

/-! the channels -/

@[simp] theorem srxRead_c2s : (srxRead s).c2s = s.c2s := rfl
@[simp] theorem srxRead_s2c : (srxRead s).s2c = { s.s2c with ibuf := SerialFrame.window s.srxq } := rfl
@[simp] theorem srxRead_srxq : (srxRead s).srxq = s.srxq.drop 11 := rfl
@[simp] theorem srxRead_crxq : (srxRead s).crxq = s.crxq := rfl
@[simp] theorem srxRead_stx : (srxRead s).stx = s.stx := rfl
@[simp] theorem srxRead_ctx : (srxRead s).ctx = s.ctx := rfl
@[simp] theorem srxRead_par : (srxRead s).par = s.par := rfl
@[simp] theorem srxRead_sched : (srxRead s).sched = s.sched := rfl
@[simp] theorem srxRead_tick : (srxRead s).tick = s.tick := rfl

@[simp] theorem srxDrain_c2s : (srxDrain s).c2s = s.c2s := rfl
@[simp] theorem srxDrain_s2c : (srxDrain s).s2c = s.s2c := rfl
@[simp] theorem srxDrain_srxq : (srxDrain s).srxq = [] := rfl
@[simp] theorem srxDrain_crxq : (srxDrain s).crxq = s.crxq := rfl
@[simp] theorem srxDrain_stx : (srxDrain s).stx = s.stx := rfl
@[simp] theorem srxDrain_ctx : (srxDrain s).ctx = s.ctx := rfl
@[simp] theorem srxDrain_par : (srxDrain s).par = s.par := rfl
@[simp] theorem srxDrain_sched : (srxDrain s).sched = s.sched := rfl
@[simp] theorem srxDrain_tick : (srxDrain s).tick = s.tick := rfl

@[simp] theorem crxPop_c2s : (crxPop s).c2s = s.c2s := rfl
@[simp] theorem crxPop_s2c : (crxPop s).s2c = s.s2c := rfl
@[simp] theorem crxPop_srxq : (crxPop s).srxq = s.srxq := rfl
@[simp] theorem crxPop_crxq : (crxPop s).crxq = s.crxq.tail := rfl
@[simp] theorem crxPop_stx : (crxPop s).stx = s.stx := rfl
@[simp] theorem crxPop_ctx : (crxPop s).ctx = s.ctx := rfl
@[simp] theorem crxPop_par : (crxPop s).par = s.par := rfl
@[simp] theorem crxPop_sched : (crxPop s).sched = s.sched := rfl
@[simp] theorem crxPop_tick : (crxPop s).tick = s.tick := rfl

@[simp] theorem stxWrite_c2s : (stxWrite k f s).c2s = s.c2s := rfl
@[simp] theorem stxWrite_s2c : (stxWrite k f s).s2c = s.s2c := rfl
@[simp] theorem stxWrite_srxq : (stxWrite k f s).srxq = s.srxq := rfl
@[simp] theorem stxWrite_crxq : (stxWrite k f s).crxq = s.crxq := rfl
@[simp] theorem stxWrite_stx : (stxWrite k f s).stx = s.stx ++ f.bytes.take k.val := rfl
@[simp] theorem stxWrite_ctx : (stxWrite k f s).ctx = s.ctx := rfl
@[simp] theorem stxWrite_par : (stxWrite k f s).par = s.par := rfl
@[simp] theorem stxWrite_sched : (stxWrite k f s).sched = s.sched := rfl
@[simp] theorem stxWrite_tick : (stxWrite k f s).tick = s.tick := rfl

@[simp] theorem ctxWrite_ok : ctxWrite .ok F s = { s with ctx := s.ctx ++ [F] } := rfl
@[simp] theorem ctxWrite_fail : ctxWrite .fail F s = s := rfl

/-! the turn -/

@[simp] theorem takeTurn_c2s : (takeTurn s).2.c2s = s.c2s := by unfold takeTurn; split <;> rfl
@[simp] theorem takeTurn_s2c : (takeTurn s).2.s2c = s.s2c := by unfold takeTurn; split <;> rfl
@[simp] theorem takeTurn_srxq : (takeTurn s).2.srxq = s.srxq := by unfold takeTurn; split <;> rfl
@[simp] theorem takeTurn_crxq : (takeTurn s).2.crxq = s.crxq := by unfold takeTurn; split <;> rfl
@[simp] theorem takeTurn_stx : (takeTurn s).2.stx = s.stx := by unfold takeTurn; split <;> rfl
@[simp] theorem takeTurn_ctx : (takeTurn s).2.ctx = s.ctx := by unfold takeTurn; split <;> rfl
@[simp] theorem takeTurn_par : (takeTurn s).2.par = s.par := by unfold takeTurn; split <;> rfl

end Sys2Proof.Machine
end

