-- ==== Sys2Proof/Laws/Ops.lean ====
section
/-! SUPPORT. What each shared operation does, said once: the accumulation sequence, the phases of the processing steps, the
flag of an event its pipeline can raise, the append to a queue. -/

namespace Sys2Proof.Machine

/-- R93: the accumulation sequence leaves the checksum of the payload in the accumulator and changes nothing else. -/
theorem accRun_eq (P : Pipe) (p : Payload) (s : State) : accRun P p s = setAcc P (cksum8 p) s := by
  simp only [accRun, Payload.bytes, List.foldl, accAdd, accClear, acc_setAcc, setAcc_setAcc, ckSum_eq_add, cksum8_eq_add]
  congr 1
  simp

/-- R102 phases 1 to 4: OBUF holds the frame of the received payload, ACC its checksum, and the write has happened. -/
theorem c2sTransmit_eq (k : Fin 12) (s : State) :
    c2sTransmit k s =
      c2sWrite k { s with c2s := { s.c2s with obuf := sfFrame s.c2s.canin.data, acc := cksum8 s.c2s.canin.data } } := by
  simp only [c2sTransmit, c2sChecksum, accRun_eq]
  rfl

/-- The write of phase 4: STX grows by the accepted prefix, and a short one is raised. -/
theorem c2sWrite_eq (k : Fin 12) (s : State) :
    c2sWrite k s = { s with
      c2s := { s.c2s with
        status := if k.val = 11 then s.c2s.status else setFlag .c2s (.transportWriteError (some k)) s.c2s.status
        evt := if k.val = 11 then s.c2s.evt else s.c2s.evt ++ [.transportWriteError (some k)] }
      stx := s.stx ++ s.c2s.obuf.bytes.take k.val } := by
  unfold c2sWrite
  split <;> simp_all [stxWrite, raise]

/-- S2C.CAPTURE's effect: the window in IBUF, SRXQ empty, the surplus recorded if there is any. -/
theorem s2cTake_eq (s : State) :
    s2cTake s = { s with
      s2c := { s.s2c with
        st := .proc, ibuf := SerialFrame.window s.srxq
        status := if 11 < s.srxq.length then setFlag .s2c (.framingAmbiguity (s.srxq.length - 11)) s.s2c.status
          else s.s2c.status
        evt := if 11 < s.srxq.length then s.s2c.evt ++ [.framingAmbiguity (s.srxq.length - 11)] else s.s2c.evt }
      srxq := [] } := by
  by_cases h : 11 < s.srxq.length
  · simp [s2cTake, srxCount, srxRead, srxDrain, raise, h]
  · simp [s2cTake, srxCount, srxRead, srxDrain, h]

/-- Phase 3 of S2C.FWD: CTX grows by CANOUT, or the failure is raised. -/
theorem s2cWrite_eq (w : CanWrite) (s : State) :
    s2cWrite w s = match w with
      | .ok => { s with ctx := s.ctx ++ [s.s2c.canout] }
      | .fail => raise .s2c (.transportWriteError none) s := by
  cases w <;> rfl

/-- A push to SRXQ appends or changes nothing. -/
theorem srxPush_cases (b : Byte) (s : State) :
    (hasRoom s.par.rxqDepth s.srxq.length = true ∧ srxPush b s = { s with srxq := s.srxq ++ [b] }) ∨
    (hasRoom s.par.rxqDepth s.srxq.length = false ∧ srxPush b s = s) := by
  unfold srxPush
  cases h : hasRoom s.par.rxqDepth s.srxq.length <;> simp

/-- A push to CRXQ appends or changes nothing. -/
theorem crxPush_cases (x : Item) (s : State) :
    (hasRoom s.par.crxqDepth s.crxq.length = true ∧ crxPush x s = { s with crxq := s.crxq ++ [x] }) ∨
    (hasRoom s.par.crxqDepth s.crxq.length = false ∧ crxPush x s = s) := by
  unfold crxPush
  cases h : hasRoom s.par.crxqDepth s.crxq.length <;> simp

/-- There is room exactly when the depth, if there is one, is not reached. -/
theorem hasRoom_iff (depth : Option Nat) (n : Nat) :
    hasRoom depth n = true ↔ ∀ d, depth = some d → n < d := by
  cases depth <;> simp [hasRoom]

/-- Bit `n` of STATUS after an event is set: it is the event's own bit, if the pipeline can set it, or was set before. -/
theorem getLsbD_setFlag (P : Pipe) (e : Event) (status : BitVec 8) (n : Nat) (h : n < 8) :
    (setFlag P e status).getLsbD n
      = (status.getLsbD n || (decide (n = eventCode e) && (settable P).getLsbD n)) := by
  have code : eventCode e < 8 := by cases e <;> simp [eventCode]
  simp only [setFlag, BitVec.getLsbD_or, BitVec.getLsbD_and, flagBit, BitVec.getLsbD_shiftLeft, BitVec.getLsbD_one]
  by_cases hn : n = eventCode e
  · simp [hn, code]
  · by_cases hlt : n < eventCode e
    · simp [hn, hlt]
    · simp [hn, hlt, h, show n - eventCode e ≠ 0 by omega]

/-- The flag of TransportOpenError. -/
theorem setFlag_open_c2s (x : BitVec 8) : setFlag .c2s .transportOpenError x = x ||| 0x02 := by
  simp [setFlag, flagBit, eventCode, settable]
theorem setFlag_open_s2c (x : BitVec 8) : setFlag .s2c .transportOpenError x = x ||| 0x02 := by
  simp [setFlag, flagBit, eventCode, settable]
/-- The flag of TransportReadError. -/
theorem setFlag_read_c2s (x : BitVec 8) : setFlag .c2s .transportReadError x = x ||| 0x04 := by
  simp [setFlag, flagBit, eventCode, settable]
/-- The flag of TransportWriteError. -/
theorem setFlag_write_c2s (k : Option (Fin 12)) (x : BitVec 8) :
    setFlag .c2s (.transportWriteError k) x = x ||| 0x08 := by
  simp [setFlag, flagBit, eventCode, settable]
theorem setFlag_write_s2c (k : Option (Fin 12)) (x : BitVec 8) :
    setFlag .s2c (.transportWriteError k) x = x ||| 0x08 := by
  simp [setFlag, flagBit, eventCode, settable]
/-- The flag of ChecksumMismatch. -/
theorem setFlag_mismatch_s2c (c r : Byte) (x : BitVec 8) :
    setFlag .s2c (.checksumMismatch c r) x = x ||| 0x10 := by
  simp [setFlag, flagBit, eventCode, settable]
/-- The flag of FramingAmbiguity. -/
theorem setFlag_framing_s2c (m : Nat) (x : BitVec 8) : setFlag .s2c (.framingAmbiguity m) x = x ||| 0x20 := by
  simp [setFlag, flagBit, eventCode, settable]

/-- RESET, both columns of R27's table. -/
theorem resetBlock_eq (openOk : Bool) (s : State) :
    resetBlock openOk s = { s with
      c2s := if openOk then C2S.zero else { C2S.zero with st := .halt, status := 0x02, evt := [.transportOpenError] }
      s2c := if openOk then S2C.zero else { S2C.zero with st := .halt, status := 0x02, evt := [.transportOpenError] }
      srxq := [], crxq := [], stx := [], ctx := [] } := by
  cases openOk
  · simp only [resetBlock, haltBoth, resetZero, raise, C2S.zero, S2C.zero, setFlag_open_c2s, setFlag_open_s2c]
    simp
  · rfl

/-- A draw written as a byte and read back. -/
theorem drawOf_ofNat (k : Fin 12) : drawOf (BitVec.ofNat 8 k.val) = .ok (.c2sProc k) := by
  have hk : (BitVec.ofNat 8 k.val).toNat = k.val := by
    simp only [BitVec.toNat_ofNat]; omega
  simp only [drawOf, hk, k.isLt, dif_pos]

end Sys2Proof.Machine
end

