-- ==== Sys2Proof/Laws/PerInstr.lean ====
section
/-! SUPPORT. The family of statements made for all instructions: how many bytes an instruction's encoding has. -/

namespace Sys2Proof.Laws.ByteCount

/-- The encoding of an instruction has the number of bytes its format has (R47, R70, R75). -/
def Statement (i : Instr) : Prop := (encode i).2.length = i.byteCount

theorem s2cFwd (W : SerialFrame) (w : CanWrite) : Statement (.s2cFwd W w) := rfl
theorem s2cDrop (W : SerialFrame) : Statement (.s2cDrop W) := rfl
theorem c2sRecv (F : CanFrame) : Statement (.c2sRecv F) := rfl
theorem c2sRderr : Statement .c2sRderr := rfl
theorem sfTx (p : Payload) (k : Fin 12) : Statement (.sfTx p k) := rfl
theorem cfTx (id : BitVec 11) (d : Payload) (w : CanWrite) : Statement (.cfTx id d w) := rfl
theorem c2sProc (k : Fin 12) : Statement (.c2sProc k) := rfl
theorem s2cPoll : Statement .s2cPoll := rfl
theorem s2cCapture : Statement .s2cCapture := rfl
theorem ckSum8 (p : Payload) : Statement (.ckSum8 p) := rfl
theorem ckClr (P : Pipe) : Statement (.ckClr P) := rfl
theorem ckAdd (P : Pipe) (b : Byte) : Statement (.ckAdd P b) := rfl
theorem envSrxPush (b : Byte) : Statement (.envSrxPush b) := rfl
theorem envCrxPush (F : CanFrame) : Statement (.envCrxPush F) := rfl
theorem envCrxPusherr : Statement .envCrxPusherr := rfl
theorem reset (openOk : Bool) : Statement (.reset openOk) := rfl

end Sys2Proof.Laws.ByteCount
end

