-- ==== Sys2Proof/Laws/Step.lean ====
section
/-! SUPPORT. What a step can do, said once: which instruction a turn runs, and the inversion of a step into the next states
the rules give. -/

namespace Sys2Proof.Machine

/-- What C2S's turn runs in a state (the turn already spent). -/
def c2sRuns (k : Fin 12) (u : State) : Host.Outcome State Fault Refusal :=
  match u.c2s.st, u.crxq with
  | .wait, [] => .next u
  | .wait, .frame F :: _ => exec (.c2sRecv F) u
  | .wait, .err :: _ => exec .c2sRderr u
  | .proc, _ => exec (.c2sProc k) u
  | .halt, _ => .next u

/-- What S2C's turn runs in a state (the turn already spent). -/
def s2cRuns (w : CanWrite) (u : State) : Host.Outcome State Fault Refusal :=
  match u.s2c.st with
  | .wait => if u.srxq.length < 11 then exec .s2cPoll u else exec .s2cCapture u
  | .proc => exec (classifyWindow u.s2c.ibuf w) u
  | .halt => .next u

/-- What a turn runs in a state (the turn already spent). -/
def turnRuns (x : Turn) (u : State) : Host.Outcome State Fault Refusal :=
  match x with
  | .c2s k => c2sRuns k u
  | .s2c w => s2cRuns w u
  | .srxPush b => exec (.envSrxPush b) u
  | .crxPush F => exec (.envCrxPush F) u
  | .crxPushErr => exec .envCrxPusherr u
  | .reset openOk => exec (.reset openOk) u

/-- A step is its turn spent and the turn's instruction run: fetching and decoding never fail. -/
theorem step_eq_turnRuns (s : State) : step s = turnRuns (takeTurn s).1 (takeTurn s).2 := by
  unfold step
  generalize (takeTurn s).2 = u
  cases (takeTurn s).1 with
  | c2s k =>
    simp only [fetchWord, fetchC2s, turnRuns, c2sRuns, crxHead]
    cases u.c2s.st with
    | wait =>
      rcases u.crxq with _ | ⟨x | _, rest⟩
      · rfl
      · show (match (CanFrame.ofBytes x.bytes).map Instr.c2sRecv with
          | .ok i => exec i u
          | .error r => .refused (.undecoded r)) = exec (.c2sRecv x) u
        rw [CanFrame.ofBytes_bytes]
        rfl
      · rfl
    | proc =>
      show (match drawOf (BitVec.ofNat 8 k.val) with
        | .ok i => exec i u
        | .error r => .refused (.undecoded r)) = exec (.c2sProc k) u
      rw [drawOf_ofNat]
    | halt => rfl
  | s2c w =>
    simp only [fetchWord, fetchS2c, turnRuns, s2cRuns, srxCount]
    cases u.s2c.st with
    | wait => by_cases h : u.srxq.length < 11 <;> simp only [h, if_true, if_false] <;> rfl
    | proc => rfl
    | halt => rfl
  | srxPush b => rfl
  | crxPush F =>
    show (match (CanFrame.ofBytes F.bytes).map Instr.envCrxPush with
      | .ok i => exec i u
      | .error r => .refused (.undecoded r)) = exec (.envCrxPush F) u
    rw [CanFrame.ofBytes_bytes]
    rfl
  | crxPushErr => rfl
  | reset openOk => cases openOk <;> rfl

/-- The next states the rules give a turn, from the state in which the turn is spent. -/
inductive Moves : Turn → State → State → Prop
  | c2sIdle (k) (u : State) : u.c2s.st = .wait → u.crxq = [] → Moves (.c2s k) u u
  | c2sHalted (k) (u : State) : u.c2s.st = .halt → Moves (.c2s k) u u
  | recv (k) (u : State) (F rest) : u.c2s.st = .wait → u.crxq = .frame F :: rest →
      Moves (.c2s k) u { u with c2s := { u.c2s with canin := F, st := .proc }, crxq := rest }
  | rderr (k) (u : State) (rest) : u.c2s.st = .wait → u.crxq = .err :: rest →
      Moves (.c2s k) u { u with
        c2s := { u.c2s with status := setFlag .c2s .transportReadError u.c2s.status, evt := u.c2s.evt ++ [.transportReadError] }
        crxq := rest }
  | proc (k : Fin 12) (u : State) : u.c2s.st = .proc →
      Moves (.c2s k) u { u with
        c2s := { C2S.zero with
          status := if k.val = 11 then u.c2s.status else setFlag .c2s (.transportWriteError (some k)) u.c2s.status
          evt := if k.val = 11 then u.c2s.evt else u.c2s.evt ++ [.transportWriteError (some k)] }
        stx := u.stx ++ (sfFrame u.c2s.canin.data).bytes.take k.val }
  | poll (w) (u : State) : u.s2c.st = .wait → u.srxq.length < 11 → Moves (.s2c w) u u
  | capture (w) (u : State) : u.s2c.st = .wait → 11 ≤ u.srxq.length →
      Moves (.s2c w) u { u with
        s2c := { u.s2c with
          st := .proc, ibuf := SerialFrame.window u.srxq
          status := if 11 < u.srxq.length then setFlag .s2c (.framingAmbiguity (u.srxq.length - 11)) u.s2c.status
            else u.s2c.status
          evt := if 11 < u.srxq.length then u.s2c.evt ++ [.framingAmbiguity (u.srxq.length - 11)] else u.s2c.evt }
        srxq := [] }
  | fwdOk (u : State) : u.s2c.st = .proc → cksum8 u.s2c.ibuf.pay = u.s2c.ibuf.ck →
      Moves (.s2c .ok) u { u with
        s2c := { S2C.zero with status := u.s2c.status, evt := u.s2c.evt }
        ctx := u.ctx ++ [cfFrame u.par.canTxId u.s2c.ibuf.pay] }
  | fwdFail (u : State) : u.s2c.st = .proc → cksum8 u.s2c.ibuf.pay = u.s2c.ibuf.ck →
      Moves (.s2c .fail) u { u with
        s2c := { S2C.zero with
          status := setFlag .s2c (.transportWriteError none) u.s2c.status
          evt := u.s2c.evt ++ [.transportWriteError none] } }
  | drop (w) (u : State) : u.s2c.st = .proc → cksum8 u.s2c.ibuf.pay ≠ u.s2c.ibuf.ck →
      Moves (.s2c w) u { u with
        s2c := { S2C.zero with
          canout := u.s2c.canout
          status := setFlag .s2c (.checksumMismatch (cksum8 u.s2c.ibuf.pay) u.s2c.ibuf.ck) u.s2c.status
          evt := u.s2c.evt ++ [.checksumMismatch (cksum8 u.s2c.ibuf.pay) u.s2c.ibuf.ck] } }
  | s2cHalted (w) (u : State) : u.s2c.st = .halt → Moves (.s2c w) u u
  | srx (b) (u : State) : hasRoom u.par.rxqDepth u.srxq.length = true →
      Moves (.srxPush b) u { u with srxq := u.srxq ++ [b] }
  | srxLost (b) (u : State) : hasRoom u.par.rxqDepth u.srxq.length = false → Moves (.srxPush b) u u
  | crx (F) (u : State) : hasRoom u.par.crxqDepth u.crxq.length = true →
      Moves (.crxPush F) u { u with crxq := u.crxq ++ [.frame F] }
  | crxLost (F) (u : State) : hasRoom u.par.crxqDepth u.crxq.length = false → Moves (.crxPush F) u u
  | crxErr (u : State) : hasRoom u.par.crxqDepth u.crxq.length = true →
      Moves .crxPushErr u { u with crxq := u.crxq ++ [.err] }
  | crxErrLost (u : State) : hasRoom u.par.crxqDepth u.crxq.length = false → Moves .crxPushErr u u
  | reset (openOk) (u : State) : Moves (.reset openOk) u (resetBlock openOk u)

/-- A step makes one of these moves. -/
theorem moves_of_step {s t : State} (h : step s = .next t) : Moves (takeTurn s).1 (takeTurn s).2 t := by
  rw [step_eq_turnRuns] at h
  generalize (takeTurn s).2 = u at h ⊢
  cases hx : (takeTurn s).1 with
  | c2s k =>
    rw [hx] at h
    simp only [turnRuns, c2sRuns] at h
    split at h
    · next hst hq => cases h; exact .c2sIdle k _ hst hq
    · next F rest hst hq =>
      simp only [exec, execC2sRecv, crxHead, hst, hq, crxPop] at h
      simp only [List.head?_cons, and_self, if_true, List.tail_cons] at h
      cases h; exact .recv k u F rest hst hq
    · next rest hst hq =>
      have he : exec .c2sRderr u = .next (raise .c2s .transportReadError (crxPop u)) :=
        if_pos ⟨hst, by simp [crxHead, hq]⟩
      have key := Moves.rderr k u rest hst hq
      rw [he] at h
      cases h
      simpa only [raise, crxPop, hq, List.tail_cons] using key
    · next hst =>
      simp only [exec, execC2sProc, hst, if_true, c2sTransmit_eq, c2sWrite_eq, c2sClear] at h
      cases h; exact .proc k u hst
    · next hst => cases h; exact .c2sHalted k _ hst
  | s2c w =>
    rw [hx] at h
    simp only [turnRuns, s2cRuns] at h
    split at h
    · next hst =>
      split at h
      · next hq =>
        simp only [exec, execS2cPoll, srxCount, hst, hq, and_self, if_true] at h
        cases h; exact .poll w _ hst hq
      · next hq =>
        have hq' : 11 ≤ u.srxq.length := by omega
        simp only [exec, execS2cCapture, srxCount, hst, hq', and_self, if_true, s2cTake_eq] at h
        cases h; exact .capture w u hst hq'
    · next hst =>
      by_cases hc : cksum8 u.s2c.ibuf.pay = u.s2c.ibuf.ck
      · simp only [classifyWindow, hc, if_true, exec, execS2cFwd, hst, and_self, s2cChecksum, accRun_eq, s2cBuild, s2cWrite_eq,
          s2cClear] at h
        cases w with
        | ok => cases h; exact .fwdOk u hst hc
        | fail => cases h; exact .fwdFail u hst hc
      · simp only [classifyWindow, hc, if_false, exec, execS2cDrop, hst, ne_eq, not_false_eq_true, and_self, if_true, s2cChecksum,
          accRun_eq, s2cDropClear, acc_setAcc] at h
        cases h; exact .drop w u hst hc
    · next hst => cases h; exact .s2cHalted w _ hst
  | srxPush b =>
    rw [hx] at h
    cases h
    show Moves _ u (srxPush b u)
    rcases srxPush_cases b u with ⟨hr, he⟩ | ⟨hr, he⟩ <;> rw [he]
    · exact .srx b u hr
    · exact .srxLost b u hr
  | crxPush F =>
    rw [hx] at h
    cases h
    show Moves _ u (crxPush (.frame F) u)
    rcases crxPush_cases (.frame F) u with ⟨hr, he⟩ | ⟨hr, he⟩ <;> rw [he]
    · exact .crx F u hr
    · exact .crxLost F u hr
  | crxPushErr =>
    rw [hx] at h
    cases h
    show Moves _ u (crxPush .err u)
    rcases crxPush_cases .err u with ⟨hr, he⟩ | ⟨hr, he⟩ <;> rw [he]
    · exact .crxErr u hr
    · exact .crxErrLost u hr
  | reset openOk => rw [hx] at h; cases h; exact .reset openOk u

/-- A move leaves the turns still to come as they are. -/
theorem moves_sched {x : Turn} {u t : State} (m : Moves x u t) : t.sched = u.sched := by
  cases m <;> first | rfl | rw [resetBlock_eq]

/-- A move leaves the parameters as they are. -/
theorem moves_par {x : Turn} {u t : State} (m : Moves x u t) : t.par = u.par := by
  cases m <;> first | rfl | rw [resetBlock_eq]

/-- A move leaves the count of free turns as it is. -/
theorem moves_tick {x : Turn} {u t : State} (m : Moves x u t) : t.tick = u.tick := by
  cases m <;> first | rfl | rw [resetBlock_eq]

/-- With a turn placed, that one is taken. -/
theorem takeTurn_cons {s : State} {x : Turn} {r : List Turn} (h : s.sched = x :: r) :
    takeTurn s = (x, { s with sched := r }) := by
  simp only [takeTurn, h]

/-- A property that spending a turn keeps and every move keeps is kept by a step. -/
theorem step_keeps {Q : State → Prop} (spent : ∀ s, Q s → Q (takeTurn s).2)
    (moved : ∀ x u t, Moves x u t → Q u → Q t) {s t : State} (hs : Q s) (h : step s = .next t) : Q t :=
  moved _ _ _ (moves_of_step h) (spent s hs)

end Sys2Proof.Machine
end

