-- ==== Sys2Proof/Laws/Runs.lean ====
section
/-! SUPPORT. Runs of several turns: how they compose, and what the environment adds to the receive queues, turn by turn. -/

namespace Sys2Proof.Machine

theorem runSteps_succ {s t : State} (h : step s = .next t) (n : Nat) : runSteps (n + 1) s = runSteps n t := by
  simp only [runSteps, h]

/-- A run of `n` and then `m` turns. -/
theorem runSteps_add {n : Nat} (m : Nat) {s t : State} (h : runSteps n s = .next t) :
    runSteps (n + m) s = runSteps m t := by
  induction n generalizing s with
  | zero => cases h; rw [Nat.zero_add]
  | succ n ih =>
    rw [Nat.succ_add]
    simp only [runSteps] at h ⊢
    split at h
    · exact ih h
    · cases h
    · cases h

@[simp] theorem surplusEvent_nil : surplusEvent [] = [] := rfl

@[simp] theorem surplusEvent_cons (b : Byte) (X : List Byte) :
    surplusEvent (b :: X) = [.framingAmbiguity (X.length + 1)] := rfl

@[simp] theorem crxAdded_zero (turns : Nat → Turn) (s : State) : crxAdded turns s 0 = [] := rfl

@[simp] theorem srxAdded_zero (turns : Nat → Turn) (s : State) : srxAdded turns s 0 = [] := rfl

/-- One turn more adds the item it delivers, if there is room. -/
theorem crxAdded_succ {turns : Nat → Turn} {s t : State} {n : Nat} (h : runTurns turns n s = .next t) :
    crxAdded turns s (n + 1) = crxAdded turns s n ++
      (if hasRoom t.par.crxqDepth t.crxq.length then (turnItem (turns n)).toList else []) := by
  rw [crxAdded, List.range_succ, List.filterMap_append, crxAdded]
  simp only [List.filterMap_cons, h, List.filterMap_nil]
  cases hasRoom t.par.crxqDepth t.crxq.length <;> cases turnItem (turns n) <;> simp

/-- One turn more adds the byte it delivers, if there is room. -/
theorem srxAdded_succ {turns : Nat → Turn} {s t : State} {n : Nat} (h : runTurns turns n s = .next t) :
    srxAdded turns s (n + 1) = srxAdded turns s n ++
      (if hasRoom t.par.rxqDepth t.srxq.length then (turnByte (turns n)).toList else []) := by
  rw [srxAdded, List.range_succ, List.filterMap_append, srxAdded]
  simp only [List.filterMap_cons, h, List.filterMap_nil]
  cases hasRoom t.par.rxqDepth t.srxq.length <;> cases turnByte (turns n) <;> simp

end Sys2Proof.Machine
end

