-- ==== Sys2Proof/Tests/Slice0.lean ====
section
/-! SUPPORT. Tests: expected values come from spec/95_test_vectors.md and the rules' own examples, named beside each; then
a witness for every statement that has hypotheses. -/

namespace Sys2Proof.Tests

open Sys2Proof.Machine

/-- The next state, if there is one. -/
def nextOf : Host.Outcome State Fault Refusal → Option State
  | .next t => some t
  | .fault _ => none
  | .refused _ => none

/-- Payload A of spec/95_test_vectors.md. -/
def pA : Payload := ⟨0x01, 0x02, 0x03, 0x04, 0x05, 0x06, 0x07, 0x08⟩
/-- Payload D of spec/95_test_vectors.md. -/
def pD : Payload := ⟨0xFF, 0, 0, 0, 0, 0, 0, 0⟩
/-- Serial frame A. -/
def wA : SerialFrame := ⟨0x24, 0x08, pA, 0x24⟩
/-- Serial frame D, S7. -/
def wD : SerialFrame := ⟨0x24, 0x08, pD, 0xFF⟩
/-- Frame A with checksum bit 0 flipped, V30. -/
def wBad : SerialFrame := ⟨0x24, 0x08, pA, 0x25⟩
/-- The CAN frame of V50. -/
def fA : CanFrame := ⟨0x123, 8, pA⟩

/-- The state after reset, with T = 0x100 as in V73 and unbounded queues. -/
def base : State := { State.reset with par := ⟨0x100, none, none⟩ }
/-- The same with the smallest depths. -/
def small : State := { State.reset with par := ⟨0x100, some 11, some 1⟩ }
/-- C2S holding a frame. -/
def c2sBusy (F : CanFrame) : State := { base with c2s := { base.c2s with st := .proc, canin := F } }
/-- S2C holding a window. -/
def s2cBusy (W : SerialFrame) : State := { base with s2c := { base.s2c with st := .proc, ibuf := W } }
/-- SRXQ holding bytes. -/
def heard (q : List Byte) : State := { base with srxq := q }
/-- CRXQ holding items. -/
def queued (q : List Item) : State := { base with crxq := q }
/-- A failed start. -/
def halted : State := resetBlock false base
/-- A turn placed. -/
def withTurn (x : Turn) (s : State) : State := { s with sched := [x] }

/-! ### Well-formedness: one ill-formed term for each check -/

theorem test_wf_fwd_refuses_wrong_checksum : (Instr.s2cFwd wBad .ok).wf = false := by decide
theorem test_wf_drop_refuses_right_checksum : (Instr.s2cDrop wA).wf = false := by decide
theorem test_wf_crxPush_refuses_dlc_9 : (Instr.envCrxPush ⟨0, 9, pA⟩).wf = false := by decide

/-! ### Decoding: each constructor from bytes written out from the spec's encoding -/

/-- V22: offsets 0 and 1 are not examined. -/
theorem test_decode_fwd : (decode (.window .fail) [0x00, 0x00, 0xFF, 0, 0, 0, 0, 0, 0, 0, 0xFF]).toOption
    = some (.s2cFwd ⟨0, 0, pD, 0xFF⟩ .fail) := by decide
/-- V30. -/
theorem test_decode_drop : (decode (.window .ok) [0x24, 0x08, 1, 2, 3, 4, 5, 6, 7, 8, 0x25]).toOption
    = some (.s2cDrop wBad) := by decide
/-- V72: `0x12380102030405060708`. -/
theorem test_decode_recv : (decode .item [0x12, 0x38, 1, 2, 3, 4, 5, 6, 7, 8]).toOption = some (.c2sRecv fA) := by decide
/-- R78: an `Err` item carries no bits. -/
theorem test_decode_rderr : (decode .item []).toOption = some .c2sRderr := by decide
/-- V70. -/
theorem test_decode_sfTx : (decode (.stx 4) [0x24, 0x08, 1, 2, 3, 4, 5, 6, 7, 8, 0x24]).toOption = some (.sfTx pA 4) := by
  decide
/-- V74: `0x7FF8FF00000000000000`. -/
theorem test_decode_cfTx : (decode (.ctx .ok) [0x7F, 0xF8, 0xFF, 0, 0, 0, 0, 0, 0, 0]).toOption
    = some (.cfTx 0x7FF pD .ok) := by decide
/-- R81: `C2S.PROC k=10`. -/
theorem test_decode_proc : (decode .c2sProc [10]).toOption = some (.c2sProc 10) := by decide
theorem test_decode_poll : (decode .s2cPoll []).toOption = some .s2cPoll := by decide
theorem test_decode_capture : (decode .s2cCapture []).toOption = some .s2cCapture := by decide
theorem test_decode_sum8 : (decode .sum8 [1, 2, 3, 4, 5, 6, 7, 8]).toOption = some (.ckSum8 pA) := by decide
theorem test_decode_ckClr : (decode (.ckClr .s2c) []).toOption = some (.ckClr .s2c) := by decide
theorem test_decode_ckAdd : (decode (.ckAdd .c2s) [0x80]).toOption = some (.ckAdd .c2s 0x80) := by decide
theorem test_decode_srx : (decode .srx [0x24]).toOption = some (.envSrxPush 0x24) := by decide
/-- V72. -/
theorem test_decode_crx : (decode .crx [0x12, 0x38, 1, 2, 3, 4, 5, 6, 7, 8]).toOption = some (.envCrxPush fA) := by decide
theorem test_decode_crxErr : (decode .crxErr []).toOption = some .envCrxPusherr := by decide
theorem test_decode_reset : (decode .reset [0]).toOption = some (.reset false) := by decide
/-- V71: an egress frame must begin 24 08; bit 79 of a record is no bit of R75's vector. -/
theorem test_decode_rejects : (decode (.stx 4) [0x24, 0x03, 1, 2, 3, 4, 5, 6, 7, 8, 0x24]).toOption = none ∧
    (decode .item [0x92, 0x38, 1, 2, 3, 4, 5, 6, 7, 8]).toOption = none := by decide
/-- R70, R71: an 88-bit word of the table is a window, and step runs it (V20). -/
theorem test_table_word_runs : (nextOf (step (base.withFetchWord 88 0x2408FF00000000000000FF))).map (·.ctx)
    = some [⟨0x100, 8, pD⟩] := by decide
/-- R75: a 79-bit word is a `Frame` item, and step runs it (V50). -/
theorem test_table_item_runs : (nextOf (step (base.withFetchWord 79 0x12380102030405060708))).map (·.c2s.canin)
    = some fA := by decide

/-! ### CK -/

/-- V3, V7. -/
theorem test_cksum8 : cksum8 ⟨0xFF, 0xFF, 0xFF, 0xFF, 0xFF, 0xFF, 0xFF, 0xFF⟩ = 0xF8 ∧
    cksum8 ⟨0xDE, 0xAD, 0xBE, 0xEF, 0xCA, 0xFE, 0xBA, 0xBE⟩ = 0x78 := by decide
/-- R91's example. -/
theorem test_ckClr : (nextOf (exec (.ckClr .c2s) (setAcc .c2s 0x5A base))).map (·.c2s.acc) = some 0 := by decide
/-- R92: `ACC = FF, b = FF` gives `FE`. -/
theorem test_ckAdd : (nextOf (exec (.ckAdd .s2c 0xFF) (setAcc .s2c 0xFF base))).map (·.s2c.acc) = some 0xFE := by decide
/-- R92's example: `ACC = 1C, b = 08` gives `24`; the other instance is untouched (R96). -/
theorem test_ckAdd_own : (nextOf (exec (.ckAdd .c2s 0x08) (setAcc .c2s 0x1C base))).map (fun t => (t.c2s.acc, t.s2c.acc))
    = some (0x24, 0) := by decide

/-! ### C2S -/

/-- R100's example. -/
theorem test_recv : (nextOf (exec (.c2sRecv fA) (queued [.frame fA]))).map (fun t => (t.c2s.st, t.crxq.length))
    = some (.proc, 0) := by decide
/-- R101's example, V60. -/
theorem test_rderr : (nextOf (exec .c2sRderr (queued [.err, .frame fA]))).map (fun t => (t.c2s.status, t.crxq))
    = some (0x04, [.frame fA]) := by decide
/-- V53: `dlc = 3`, all 8 bytes moved. -/
theorem test_proc_short_dlc : (nextOf (exec (.c2sProc 11)
      (c2sBusy ⟨0x7FF, 3, ⟨0xAA, 0xBB, 0xCC, 0xDE, 0xAD, 0xBE, 0xEF, 0x00⟩⟩))).map (·.stx)
    = some [0x24, 0x08, 0xAA, 0xBB, 0xCC, 0xDE, 0xAD, 0xBE, 0xEF, 0x00, 0x69] := by decide
/-- V57: a short write. -/
theorem test_proc_short_write : (nextOf (exec (.c2sProc 4) (c2sBusy fA))).map (fun t => (t.stx, t.c2s.evt, t.c2s.status))
    = some ([0x24, 0x08, 1, 2], [.transportWriteError (some 4)], 0x08) := by decide
/-- V59: only the checksum byte lost; the frame stands in OBUF. -/
theorem test_sfTx : (nextOf (exec (.sfTx pA 10) (c2sBusy fA))).map (fun t => (t.stx.length, t.c2s.obuf)) = some (10, wA) := by
  decide

/-! ### S2C -/

/-- V41. -/
theorem test_poll : (nextOf (exec .s2cPoll (heard [0x24, 8, 1, 2, 3, 4, 5]))).map (·.srxq.length) = some 7 := by decide
/-- V38, R121's example: 14 bytes. -/
theorem test_capture_surplus : (nextOf (exec .s2cCapture (heard (wD.bytes ++ [0x24, 0x08, 0x01])))).map
      (fun t => (t.s2c.ibuf, t.srxq, t.s2c.evt, t.s2c.status))
    = some (wD, [], [.framingAmbiguity 3], 0x20) := by decide
/-- R121 case (d): exactly 11 bytes. -/
theorem test_capture_exact : (nextOf (exec .s2cCapture (heard wA.bytes))).map (·.s2c.evt) = some [] := by decide
/-- V20. -/
theorem test_fwd : (nextOf (exec (.s2cFwd wD .ok) (s2cBusy wD))).map (fun t => (t.ctx, t.s2c.evt))
    = some ([⟨0x100, 8, pD⟩], []) := by decide
/-- V26. -/
theorem test_fwd_fail : (nextOf (exec (.s2cFwd wA .fail) (s2cBusy wA))).map (fun t => (t.ctx, t.s2c.status)) = some ([], 0x08) := by
  decide
/-- V30. -/
theorem test_drop : (nextOf (exec (.s2cDrop wBad) (s2cBusy wBad))).map (fun t => (t.ctx, t.s2c.evt, t.s2c.status))
    = some ([], [.checksumMismatch 0x24 0x25], 0x10) := by decide
/-- V73: the frame stands in CANOUT. -/
theorem test_cfTx : (nextOf (exec (.cfTx 0x100 pD .ok) (s2cBusy wD))).map (·.s2c.canout.bytes)
    = some [0x10, 0x08, 0xFF, 0, 0, 0, 0, 0, 0, 0] := by decide

/-! ### The environment -/

/-- R49: a full queue loses the byte. -/
theorem test_srx_full : (nextOf (exec (.envSrxPush 0x55) { small with srxq := wA.bytes })).map (·.srxq) = some wA.bytes := by
  decide
/-- R50: a full queue loses the item. -/
theorem test_crx_full : (nextOf (exec (.envCrxPush fA) { small with crxq := [.err] })).map (·.crxq) = some [.err] := by decide
/-- R50. -/
theorem test_crxErr : (nextOf (exec .envCrxPusherr (queued [.frame fA]))).map (·.crxq) = some [.frame fA, .err] := by decide
/-- V82. -/
theorem test_reset_in_proc : (nextOf (exec (.reset true) { s2cBusy wA with srxq := [1, 2, 3] })).map
    (fun t => (t.s2c, t.srxq)) = some (S2C.zero, []) := by decide
/-- V81. -/
theorem test_reset_failed : (nextOf (exec (.reset false) base)).map (fun t => (t.c2s.st, t.c2s.status, t.s2c.evt))
    = some (.halt, 0x02, [.transportOpenError]) := by decide
/-- P7: a halted block takes no step but keeps the bytes. -/
theorem test_halted_turn : (nextOf (step (withTurn (.s2c .ok) { halted with srxq := wA.bytes }))).map (·.srxq)
    = some wA.bytes := by decide

/-! ### Witnesses: every statement with hypotheses is met -/

theorem witness_ChecksumIgnoresOrder :
    Payload.bytes ⟨8, 7, 6, 5, 4, 3, 2, 1⟩ ≠ pA.bytes ∧ (Payload.bytes ⟨8, 7, 6, 5, 4, 3, 2, 1⟩).Perm pA.bytes := by decide

/-- Both ends of the range of offsets. -/
theorem witness_OneChangedByteIsDropped : cksum8 wA.pay = wA.ck ∧ wA.bytes.getD 2 0 ≠ 0x09 ∧ wA.bytes.getD 10 0 ≠ 0x25 := by
  decide

theorem witness_CancellingChangesPass : cksum8 wA.pay = wA.ck ∧ 2 ≤ 2 ∧ 2 < 9 ∧ 9 ≤ 9 ∧
    9 ≠ 2 := by decide

theorem witness_WindowIsForwardOrDrop : cksum8 wA.pay = wA.ck ∧ cksum8 wBad.pay ≠ wBad.ck := by decide

theorem witness_DecodeUndoesEncode : (Instr.s2cFwd wA .ok).wf = true ∧ (Instr.s2cDrop wBad).wf = true ∧
    (Instr.envCrxPush ⟨0x7FF, 8, pA⟩).wf = true := by decide

theorem witness_DecodedBytesAreTheEncoding : (decode (.window .ok) wA.bytes).toOption = some (.s2cFwd wA .ok) := by decide

theorem witness_StepRunsTheDecodedInstruction_some :
    fetchWord (takeTurn (withTurn (.s2c .ok) (s2cBusy wA))).1 (takeTurn (withTurn (.s2c .ok) (s2cBusy wA))).2
      = some (.window .ok, wA.bytes) ∧ (decode (.window .ok) wA.bytes).toOption = some (.s2cFwd wA .ok) := by decide

theorem witness_StepRunsTheDecodedInstruction_none :
    fetchWord (takeTurn (withTurn (.c2s 11) base)).1 (takeTurn (withTurn (.c2s 11) base)).2 = none ∧
    (withTurn (.c2s 11) base).sched = [.c2s 11] ∧ base.sched = [] := by decide

theorem witness_C2sTurnRunsItsEnabledStep :
    (withTurn (.c2s 11) (queued [.frame fA])).crxq = [.frame fA] ∧ (queued [.frame fA]).c2s.st = .wait ∧
    (queued [.err]).crxq = [.err] ∧ (queued [.err]).c2s.st = .wait ∧ base.crxq = [] ∧ base.c2s.st = .wait ∧
    (c2sBusy fA).c2s.st = .proc ∧ halted.c2s.st = .halt := by decide

/-- The lengths 10 and 11, where the two waiting clauses meet. -/
theorem witness_S2cTurnRunsItsEnabledStep :
    (heard (wA.bytes.take 10)).srxq.length = 10 ∧ (heard wA.bytes).srxq.length = 11 ∧ (heard wA.bytes).s2c.st = .wait ∧
    (s2cBusy wA).s2c.st = .proc ∧ cksum8 (s2cBusy wA).s2c.ibuf.pay = (s2cBusy wA).s2c.ibuf.ck ∧
    cksum8 (s2cBusy wBad).s2c.ibuf.pay ≠ (s2cBusy wBad).s2c.ibuf.ck ∧ halted.s2c.st = .halt := by decide

theorem witness_EnvironmentTurnRunsItsStep :
    (withTurn (.srxPush 0) base).sched = [.srxPush 0] ∧ (withTurn (.crxPush fA) base).sched = [.crxPush fA] ∧
    (withTurn .crxPushErr base).sched = [.crxPushErr] ∧ (withTurn (.reset true) base).sched = [.reset true] := by decide

theorem witness_C2sRecvLatchesTheFrame :
    (queued [.frame fA, .err]).c2s.st = .wait ∧ (queued [.frame fA, .err]).crxq = .frame fA :: [.err] := by decide

theorem witness_C2sRderrRecordsTheReadError :
    (queued [.err]).c2s.st = .wait ∧ (queued [.err]).crxq = .err :: [] := by decide

theorem witness_C2sProcPacksWritesAndClears : (c2sBusy fA).c2s.st = .proc := by decide

theorem witness_SfTxBuildsAndOffersTheFrame : (c2sBusy fA).c2s.st = .proc ∧ (c2sBusy fA).c2s.canin.data = pA := by decide

theorem witness_C2sCycle_frame : (queued [.frame fA]).c2s.st = .wait ∧ quietC2s (queued [.frame fA]) ∧
    (queued [.frame fA]).crxq = .frame fA :: [] := ⟨rfl, ⟨rfl, rfl, fun _ => rfl⟩, rfl⟩

theorem witness_C2sCycle_err : (queued [.err]).c2s.st = .wait ∧ quietC2s (queued [.err]) ∧
    (queued [.err]).crxq = .err :: [] := ⟨rfl, ⟨rfl, rfl, fun _ => rfl⟩, rfl⟩

theorem witness_C2sProcIgnoresIdAndDlc : fA ≠ ⟨0x7FF, 3, pA⟩ ∧ fA.data = (CanFrame.mk 0x7FF 3 pA).data := by decide

theorem witness_S2cPollChangesNothing :
    (heard (wA.bytes.take 10)).s2c.st = .wait ∧ (heard (wA.bytes.take 10)).srxq.length < 11 := by decide

/-- With a surplus and without. -/
theorem witness_S2cCaptureTakesWindowAndDrains : (heard (wA.bytes ++ [1, 2])).s2c.st = .wait ∧
    (heard (wA.bytes ++ [1, 2])).srxq = wA.bytes ++ [1, 2] ∧ (heard wA.bytes).srxq = wA.bytes ++ [] := by decide

theorem witness_S2cFwdWritesAndClears :
    (s2cBusy wA).s2c.st = .proc ∧ (s2cBusy wA).s2c.ibuf = wA ∧ cksum8 wA.pay = wA.ck := by decide

theorem witness_S2cDropRecordsAndClears :
    (s2cBusy wBad).s2c.st = .proc ∧ (s2cBusy wBad).s2c.ibuf = wBad ∧ cksum8 wBad.pay ≠ wBad.ck := by decide

theorem witness_CfTxBuildsAndOffersTheFrame : (s2cBusy wA).s2c.st = .proc ∧
    cksum8 (s2cBusy wA).s2c.ibuf.pay = (s2cBusy wA).s2c.ibuf.ck ∧ (s2cBusy wA).par.canTxId = 0x100 ∧
    (s2cBusy wA).s2c.ibuf.pay = pA := by decide

theorem witness_S2cCycle :
    let s : State := { heard (wA.bytes ++ [7]) with sched := .s2c .ok :: ([1, 2].map .srxPush ++ .s2c .fail :: []) }
    s.s2c.st = .wait ∧ quietS2c s ∧ s.srxq = wA.bytes ++ [7] ∧ withinDepth s.par.rxqDepth [1, 2].length ∧
    s.sched = .s2c .ok :: ([1, 2].map .srxPush ++ .s2c .fail :: []) :=
  ⟨rfl, ⟨rfl, rfl, fun _ => rfl⟩, rfl, fun _ h => (nomatch h), rfl⟩

/-- With the smallest SRXQ the spec allows. -/
theorem witness_RoundTrip :
    let s : State := { small with crxq := [.frame fA]
                                  sched := .c2s 3 :: .c2s 11 :: (wA.bytes.map .srxPush ++ .s2c .fail :: .s2c .ok :: []) }
    s.c2s.st = .wait ∧ s.s2c.st = .wait ∧ s.crxq = .frame fA :: [] ∧ s.srxq = [] ∧ withinDepth s.par.rxqDepth 11 ∧
    s.sched = .c2s 3 :: .c2s 11 :: (wA.bytes.map .srxPush ++ .s2c .fail :: .s2c .ok :: []) :=
  ⟨rfl, rfl, rfl, rfl, fun d h => by cases h; decide, rfl⟩

/-- Unbounded; one below the depth; at the depth. -/
theorem witness_SrxPushAppendsOrLoses : base.par.rxqDepth = none ∧ small.par.rxqDepth = some 11 ∧
    (wA.bytes.take 10).length < 11 ∧ 11 ≤ wA.bytes.length := by decide

/-- Unbounded; one below the depth; at the depth. -/
theorem witness_CrxPushAppendsOrLoses : base.par.crxqDepth = none ∧ small.par.crxqDepth = some 1 ∧
    small.crxq.length < 1 ∧ 1 ≤ [Item.err].length := by decide

theorem witness_OpenFailureHaltsUntilReset :
    let s := { base with sched := [.reset false, .srxPush 1, .s2c .ok, .crxPushErr, .c2s 11] }
    s.par.rxqDepth = none ∧ s.par.crxqDepth = none ∧
    s.sched = .reset false :: ([.srxPush 1, .s2c .ok, .crxPushErr, .c2s 11] ++ []) ∧
    (∀ x ∈ [Turn.srxPush 1, .s2c .ok, .crxPushErr, .c2s 11], turnOfReset x = false) := by decide

theorem witness_RaiseRecordsAndFlags : raisable .c2s (.transportWriteError (some 10)) = true ∧
    raisable .s2c (.checksumMismatch 0x24 0x25) = true ∧ raisable .s2c (.framingAmbiguity 1) = true ∧
    raisable .c2s .transportReadError = true ∧ raisable .s2c .transportOpenError = true ∧
    raisable .s2c (.transportWriteError none) = true := by decide

theorem quiet_base : Quiescent base := ⟨⟨rfl, rfl, fun _ => rfl⟩, ⟨rfl, rfl, fun _ => rfl⟩⟩

/-- C2S's error; S2C's error other than FramingAmbiguity; FramingAmbiguity. -/
theorem witness_StateAfterAnError_c2s :
    Quiescent (withTurn (.c2s 4) (c2sBusy fA)) ∧
    turnOfReset (takeTurn (withTurn (.c2s 4) (c2sBusy fA))).1 = false ∧
    (nextOf (step (withTurn (.c2s 4) (c2sBusy fA)))).map (·.c2s.evt)
      = some ((withTurn (.c2s 4) (c2sBusy fA)).c2s.evt ++ [.transportWriteError (some 4)]) :=
  ⟨⟨⟨rfl, rfl, fun h => absurd rfl h⟩, ⟨rfl, rfl, fun _ => rfl⟩⟩, by decide, by decide⟩

theorem witness_StateAfterAnError_s2c :
    Quiescent (withTurn (.s2c .ok) (s2cBusy wBad)) ∧
    turnOfReset (takeTurn (withTurn (.s2c .ok) (s2cBusy wBad))).1 = false ∧
    eventCode (.checksumMismatch 0x24 0x25) ≠ 5 ∧
    (nextOf (step (withTurn (.s2c .ok) (s2cBusy wBad)))).map (·.s2c.evt)
      = some ((withTurn (.s2c .ok) (s2cBusy wBad)).s2c.evt ++ [.checksumMismatch 0x24 0x25]) :=
  ⟨⟨⟨rfl, rfl, fun _ => rfl⟩, ⟨rfl, rfl, fun h => absurd rfl h⟩⟩, by decide, by decide, by decide⟩

theorem witness_StateAfterAnError_framing :
    Quiescent (withTurn (.s2c .ok) (heard (wA.bytes ++ [9]))) ∧
    turnOfReset (takeTurn (withTurn (.s2c .ok) (heard (wA.bytes ++ [9])))).1 = false ∧
    eventCode (.framingAmbiguity 1) = 5 ∧
    (nextOf (step (withTurn (.s2c .ok) (heard (wA.bytes ++ [9]))))).map (·.s2c.evt)
      = some ((withTurn (.s2c .ok) (heard (wA.bytes ++ [9]))).s2c.evt ++ [.framingAmbiguity 1]) :=
  ⟨⟨⟨rfl, rfl, fun _ => rfl⟩, ⟨rfl, rfl, fun _ => rfl⟩⟩, by decide, by decide, by decide⟩

theorem witness_StateRegistersMove :
    turnOfC2s (takeTurn (withTurn (.c2s 11) (c2sBusy fA))).1 = true ∧ (c2sBusy fA).c2s.st = .proc ∧
    (nextOf (step (withTurn (.c2s 11) (c2sBusy fA)))).isSome = true ∧
    turnOfS2c (takeTurn (withTurn (.s2c .ok) (s2cBusy wA))).1 = true ∧ (s2cBusy wA).s2c.st = .proc ∧
    (nextOf (step (withTurn (.s2c .ok) (s2cBusy wA)))).isSome = true ∧
    (takeTurn (withTurn (.reset false) base)).1 = .reset false ∧
    (nextOf (step (withTurn (.reset false) base))).isSome = true := by decide

/-- A C2S instruction and an S2C instruction that both run from one state. -/
theorem witness_pipelines :
    let s : State := { c2sBusy fA with s2c := (s2cBusy wA).s2c }
    ofC2s (.c2sProc 11) = true ∧ (nextOf (exec (.c2sProc 11) s)).isSome = true ∧
    ofS2c (.s2cFwd wA .ok) = true ∧ (nextOf (exec (.s2cFwd wA .ok) s)).isSome = true := by decide

/-- Two states that agree on what C2S reads and differ elsewhere, and the same for S2C. -/
theorem witness_PipelinesReadOnlyTheirOwn :
    (nextOf (exec (.c2sProc 11) (c2sBusy fA))).isSome = true ∧ { c2sBusy fA with srxq := [1] } ≠ c2sBusy fA ∧
    (nextOf (exec (.s2cFwd wA .ok) (s2cBusy wA))).isSome = true ∧ { s2cBusy wA with stx := [1] } ≠ s2cBusy wA := by decide

theorem witness_FlagsNeverInfluence : (nextOf (step (withTurn (.c2s 11) (queued [.err])))).isSome = true := by decide

theorem witness_ParametersNeverChange : (nextOf (exec (.reset false) small)).map (·.par) = some ⟨0x100, some 11, some 1⟩ := by
  decide

theorem witness_RecordsOnlyGrow : turnOfReset (takeTurn (withTurn (.c2s 11) (c2sBusy fA))).1 = false ∧
    (nextOf (step (withTurn (.c2s 11) (c2sBusy fA)))).map (·.stx.length) = some 11 := by decide

theorem witness_FragmentIsNeverDiscarded :
    let s := withTurn (.s2c .ok) (heard (wA.bytes.take 10))
    s.s2c.st = .wait ∧ s.srxq.length < 11 ∧ turnByte (takeTurn s).1 = none ∧ turnOfReset (takeTurn s).1 = false ∧
    (nextOf (step s)).isSome = true := by decide

/-- One state that has every invariant and takes a step: C2S's turn with a frame waiting. -/
theorem witness_invariants_kept :
    let s := withTurn (.c2s 11) (queued [.frame fA])
    SafeState s ∧ (nextOf (step s)).isSome = true := by
  refine ⟨⟨⟨⟨rfl, rfl, fun _ => rfl⟩, ⟨rfl, rfl, fun _ => rfl⟩⟩, ⟨?_, ?_⟩, ⟨?_, ?_⟩, ?_, ⟨?_, ?_⟩, ?_⟩, by decide⟩
  · unfold flagsMatch; decide
  · unfold flagsMatch; decide
  · exact fun e h => nomatch h
  · exact fun e h => nomatch h
  · exact fun F h => nomatch h
  · exact fun d h => nomatch h
  · exact fun d h => nomatch h
  · unfold HaltIsOpenError; decide

theorem witness_StxCarriesTheFramesInOrder :
    let s : State := { base with sched := [.crxPush fA, .c2s 11, .c2s 4] ++ [] }
    s.c2s.st = .wait ∧ s.par.crxqDepth = none ∧ s.sched = [.crxPush fA, .c2s 11, .c2s 4] ++ [] ∧
    (∀ x ∈ [Turn.crxPush fA, .c2s 11, .c2s 4], turnOfReset x = false) := by decide

theorem witness_CtxFramesComeFromTheStream :
    let s : State := { heard wA.bytes with sched := [.srxPush 1, .s2c .ok, .s2c .ok] ++ [] }
    s.s2c.st = .wait ∧ s.par.rxqDepth = none ∧ s.sched = [.srxPush 1, .s2c .ok, .s2c .ok] ++ [] ∧
    (∀ x ∈ [Turn.srxPush 1, .s2c .ok, .s2c .ok], turnOfReset x = false) := by decide

theorem witness_WaitingFrameIsTakenAtTheTurn :
    let s : State := { queued [.frame fA] with sched := [.s2c .ok, .crxPushErr] ++ .c2s 0 :: [] }
    s.c2s.st = .wait ∧ s.crxq = .frame fA :: [] ∧ s.sched = [.s2c .ok, .crxPushErr] ++ .c2s 0 :: [] ∧
    (∀ x ∈ [Turn.s2c .ok, .crxPushErr], turnOfC2s x = false ∧ turnOfReset x = false) ∧ s.par.crxqDepth = none := by decide

theorem witness_CaptureTakesTheOldestElevenBytes :
    let s : State := { heard wA.bytes with sched := [.c2s 0, .srxPush 1] ++ .s2c .ok :: [] }
    s.s2c.st = .wait ∧ s.srxq = wA.bytes ++ [] ∧ s.par.rxqDepth = none ∧
    s.sched = [.c2s 0, .srxPush 1] ++ .s2c .ok :: [] ∧
    (∀ x ∈ [Turn.c2s 0, .srxPush 1], turnOfS2c x = false ∧ turnOfReset x = false) := by decide

/-- The two pipelines in turn, for ever. -/
def alternate (n : Nat) : Turn := if n % 2 = 0 then .c2s 11 else .s2c .ok

theorem witness_FairRunsConvertAndCapture :
    FairTurns alternate ∧ (∀ n, turnOfReset (alternate n) = false) ∧
    (queued [.err, .frame fA]).c2s.st ≠ .halt ∧ (queued [.err, .frame fA]).crxq = [.err] ++ .frame fA :: [] ∧
    (heard wA.bytes).s2c.st = .wait ∧ 11 ≤ (heard wA.bytes).srxq.length := by
  refine ⟨⟨fun n => ⟨2 * n, by omega, ?_⟩, fun n => ⟨2 * n + 1, by omega, ?_⟩⟩, fun n => ?_, by decide, rfl, rfl, by decide⟩
  · rw [alternate, if_pos (by omega)]; rfl
  · rw [alternate, if_neg (by omega)]; rfl
  · unfold alternate; split <;> rfl

/-- Asked for a step that is not enabled: nothing waits in CRXQ. -/
theorem witness_OnlyDisabledStepsFault : nextOf (exec (.c2sRecv fA) base) = none ∧ base.crxq = [] := by decide

end Sys2Proof.Tests
end

/-! Proofs of the family spec/20_memory.md: the environment's push to SRXQ. -/

namespace Sys2Proof.Proofs

open Sys2Proof.Machine

theorem exec_envSrxPush (b : Byte) (s : State) : exec (.envSrxPush b) s = .next (srxPush b s) := rfl

/-- A queue of unbounded depth always has room. -/
@[simp] theorem hasRoom_none (n : Nat) : hasRoom none n = true := rfl

/-- In a queue of finite depth there is room exactly below the depth. -/
@[simp] theorem hasRoom_some_iff (d n : Nat) : hasRoom (some d) n = true ↔ n < d := by
  simp [hasRoom_iff]

/-- A queue at its depth, or above it, has no room. -/
@[simp] theorem hasRoom_some_eq_false_iff (d n : Nat) : hasRoom (some d) n = false ↔ d ≤ n := by
  rw [Bool.eq_false_iff, ne_eq, hasRoom_some_iff, not_lt]

theorem srxPush_of_room {b : Byte} {s : State} (room : hasRoom s.par.rxqDepth s.srxq.length = true) :
    srxPush b s = { s with srxq := s.srxq ++ [b] } := by
  obtain ⟨-, appended⟩ | ⟨full, -⟩ := srxPush_cases b s
  · exact appended
  · exact absurd room (by simp [full])

theorem srxPush_of_full {b : Byte} {s : State} (full : hasRoom s.par.rxqDepth s.srxq.length = false) :
    srxPush b s = s := by
  obtain ⟨room, -⟩ | ⟨-, lost⟩ := srxPush_cases b s
  · exact absurd full (by simp [room])
  · exact lost

/-- Settles O33 (R49): the depth decides whether there is room, and the room decides what the push does. -/
theorem srxPushAppendsOrLoses : Obligations.SrxPushAppendsOrLoses := by
  intro s b
  rw [exec_envSrxPush]
  refine ⟨fun unbounded => ?_, fun d depth below => ?_, fun d depth reached => ?_⟩
  · rw [srxPush_of_room (by simp [unbounded])]
  · rw [srxPush_of_room (by simpa [depth] using below)]
  · rw [srxPush_of_full (by simpa [depth] using reached)]

end Sys2Proof.Proofs

/-! Proofs of the family spec/30_encoding.md: what the decoder reads from a window and from an item of CRXQ. -/

namespace Sys2Proof.Proofs

@[simp] theorem classifyWindow_eq_fwd_iff (W : SerialFrame) (w : CanWrite) :
    classifyWindow W w = .s2cFwd W w ↔ cksum8 W.pay = W.ck := by
  by_cases agree : cksum8 W.pay = W.ck <;> simp [classifyWindow, agree]

@[simp] theorem classifyWindow_eq_drop_iff (W : SerialFrame) (w : CanWrite) :
    classifyWindow W w = .s2cDrop W ↔ cksum8 W.pay ≠ W.ck := by
  by_cases agree : cksum8 W.pay = W.ck <;> simp [classifyWindow, agree]

/-- A window's bytes are never rejected: what they stand for is their class (R77, R79). -/
@[simp] theorem decode_window_bytes (W : SerialFrame) (w : CanWrite) :
    decode (.window w) W.bytes = .ok (classifyWindow W w) := rfl

/-- A record's ten bytes at the head of CRXQ are read as that record (R75, R78). -/
@[simp] theorem decode_item_bytes (F : CanFrame) : decode .item F.bytes = .ok (.c2sRecv F) :=
  congrArg (Except.map Instr.c2sRecv) (CanFrame.ofBytes_bytes F)

@[simp] theorem decode_item_nil : decode .item [] = .ok .c2sRderr := rfl

/-- Settles O8 (R77): the class turns on the checksum alone, and the payload fixes the one checksum that forwards. -/
theorem windowIsForwardOrDrop : Obligations.WindowIsForwardOrDrop := by
  intro W w
  refine ⟨fun agree => ?_, fun differ => ?_, cksum8 W.pay, fun c' => ?_⟩
  · rw [decode_window_bytes, (classifyWindow_eq_fwd_iff W w).mpr agree]
  · rw [decode_window_bytes, (classifyWindow_eq_drop_iff W w).mpr differ]
  · rw [decode_window_bytes, Except.ok.injEq, classifyWindow_eq_fwd_iff]
    exact eq_comm

/-- Settles O9 (R78): a record's bytes are read as the record itself, and the empty bytes as `Err`. -/
theorem itemIsReceiveOrReadError : Obligations.ItemIsReceiveOrReadError :=
  ⟨decode_item_bytes, decode_item_nil⟩

end Sys2Proof.Proofs

/-! Proofs of the family spec/40_checksum.md: the three instructions of CK and the accumulation sequence. -/

namespace Sys2Proof.Proofs

open Sys2Proof.Machine

theorem exec_ckSum8 (p : Payload) (s : State) : exec (.ckSum8 p) s = .next s := rfl

theorem exec_ckClr (P : Pipe) (s : State) : exec (.ckClr P) s = .next (accClear P s) := rfl

theorem exec_ckAdd (P : Pipe) (b : Byte) (s : State) : exec (.ckAdd P b) s = .next (accAdd P b s) := rfl

/-- R92 with its carry dropped: one addition of bytes in the accumulator. -/
theorem exec_ckAdd_eq_setAcc (P : Pipe) (b : Byte) (s : State) :
    exec (.ckAdd P b) s = .next (setAcc P (acc P s + b) s) := by
  rw [exec_ckAdd, accAdd, ckSum_eq_add]

/-- An instruction that answers a next state hands it to the rest of the list. -/
theorem execAll_cons_of_next {i : Instr} {s t : State} (h : exec i s = .next t) (is : List Instr) :
    execAll (i :: is) s = execAll is t := by
  rw [execAll, h]

/-- CK.ADD of each byte of a list is the fold of the accumulator over it. -/
theorem execAll_map_ckAdd (P : Pipe) (bs : List Byte) (s : State) :
    execAll (bs.map (.ckAdd P)) s = .next (bs.foldl (fun t b => accAdd P b t) s) := by
  induction bs generalizing s with
  | nil => rfl
  | cons b bs ih =>
    rw [List.map_cons, execAll_cons_of_next (exec_ckAdd P b s), ih, List.foldl_cons]

/-- R93 in either pipeline: the instructions run the model's accumulation, which ends at the checksum. -/
theorem execAll_accumulation (P : Pipe) (p : Payload) (s : State) :
    execAll (.ckClr P :: p.bytes.map (.ckAdd P)) s = .next (setAcc P (cksum8 p) s) := by
  rw [execAll_cons_of_next (exec_ckClr P s), execAll_map_ckAdd, ← accRun_eq, accRun]

/-- Settles O4 (R93): the accumulation sequence, in each of the two pipelines. -/
theorem accumulationEndsAtTheChecksum : Obligations.AccumulationEndsAtTheChecksum :=
  fun p s => ⟨execAll_accumulation .c2s p s, execAll_accumulation .s2c p s⟩

/-- Settles O1 (R90): the natural sum reduced modulo 256 fits in a byte, so the byte's value is that number. -/
theorem ckSum8IsTheSumModulo256 : Obligations.CkSum8IsTheSumModulo256 := by
  intro p s
  refine ⟨exec_ckSum8 p s, ?_⟩
  rw [cksum8, BitVec.toNat_ofNat]
  exact Nat.mod_mod _ _

/-- Settles O2 (R91): the clear of each instance writes its own accumulator. -/
theorem ckClrClearsItsAccumulator : Obligations.CkClrClearsItsAccumulator :=
  fun s => ⟨exec_ckClr .c2s s, exec_ckClr .s2c s⟩

/-- Settles O3 (R92): the byte left in each instance's accumulator is the sum of bytes. -/
theorem ckAddAddsModulo256 : Obligations.CkAddAddsModulo256 :=
  fun b s => ⟨⟨s.c2s.acc + b, exec_ckAdd_eq_setAcc .c2s b s, BitVec.toNat_add _ _⟩,
    ⟨s.s2c.acc + b, exec_ckAdd_eq_setAcc .s2c b s, BitVec.toNat_add _ _⟩⟩

end Sys2Proof.Proofs

/-! Proofs of the family spec/41_can_to_serial.md: the three steps of C2S, and one cycle of it. -/

namespace Sys2Proof.Proofs

open Sys2Proof.Machine

theorem crxHead_of_cons {s : State} {x : Item} {rest : List Item} (queue : s.crxq = x :: rest) : crxHead s = some x := by
  rw [crxHead, queue, List.head?_cons]

theorem crxPop_of_cons {s : State} {x : Item} {rest : List Item} (queue : s.crxq = x :: rest) :
    crxPop s = { s with crxq := rest } := by
  rw [crxPop, queue, List.tail_cons]

/-- Settles O19 (R100): the guard is the hypotheses, and what stands behind the head is the tail of CRXQ. -/
theorem c2sRecvLatchesTheFrame : Obligations.C2sRecvLatchesTheFrame := by
  intro s F rest waits queue
  calc exec (.c2sRecv F) s
    _ = .next { crxPop s with c2s := { s.c2s with canin := F, st := .proc } } := if_pos ⟨waits, crxHead_of_cons queue⟩
    _ = _ := by rw [crxPop_of_cons queue]

/-- Settles O20 (R101): the pop and the raise, whose flag is bit 2. -/
theorem c2sRderrRecordsTheReadError : Obligations.C2sRderrRecordsTheReadError := by
  intro s rest waits queue
  calc exec .c2sRderr s
    _ = .next (raise .c2s .transportReadError (crxPop s)) := if_pos ⟨waits, crxHead_of_cons queue⟩
    _ = _ := by rw [crxPop_of_cons queue, raise, setFlag_read_c2s]

theorem exec_c2sProc_of_proc {s : State} (proc : s.c2s.st = .proc) (k : Fin 12) :
    exec (.c2sProc k) s = .next (c2sClear (c2sTransmit k s)) :=
  if_pos proc

/-- R102 phases 1 to 5: of the pipeline only STATUS and the record outlive the clear, and the frame is on STX up to the
draw. -/
theorem c2sClear_c2sTransmit (k : Fin 12) (s : State) :
    c2sClear (c2sTransmit k s) = { s with
      c2s := { C2S.zero with
        status := if k = 11 then s.c2s.status else s.c2s.status ||| 0x08
        evt := if k = 11 then s.c2s.evt else s.c2s.evt ++ [.transportWriteError (some k)] }
      stx := s.stx ++ (sfFrame s.c2s.canin.data).bytes.take k.val } := by
  have whole : k.val = 11 ↔ k = 11 := (Fin.ext_iff (b := 11)).symm
  simp only [c2sTransmit_eq, c2sWrite_eq, setFlag_write_c2s, whole]
  rfl

/-- Settles O21 (R102): the five phases, with the frame's bytes and the cleared buffers written out. -/
theorem c2sProcPacksWritesAndClears : Obligations.C2sProcPacksWritesAndClears := by
  intro s k proc
  rw [exec_c2sProc_of_proc proc, c2sClear_c2sTransmit]
  rfl

/-- A waiting, quiet C2S holds nothing but its STATUS and its record: writing these two makes it what C2S.PROC leaves. -/
theorem c2s_update_of_quiet {s : State} (waits : s.c2s.st = .wait) (quiet : quietC2s s) (status : BitVec 8)
    (evt : List Event) :
    { s.c2s with status := status, evt := evt } = { C2S.zero with status := status, evt := evt } := by
  obtain ⟨obufZero, accZero, caninZero⟩ := quiet
  simp only [waits, obufZero, accZero, caninZero (by simp [waits])]
  rfl

/-- Settles O23 (R105): the frame C2S.RECV latches is the one C2S.PROC sends, and the clear puts back the zero buffers the
cycle began with; an `Err` takes C2S.RDERR alone. -/
theorem c2sCycle : Obligations.C2sCycle := by
  intro s rest waits quiet
  refine ⟨fun F k queue => ?_, fun queue => ?_⟩
  · rw [execAll_cons_of_next (c2sRecvLatchesTheFrame s F rest waits queue),
      execAll_cons_of_next (c2sProcPacksWritesAndClears _ k rfl), c2s_update_of_quiet waits quiet]
    rfl
  · rw [execAll_cons_of_next (c2sRderrRecordsTheReadError s rest waits queue), execAll]

end Sys2Proof.Proofs

/-! Proofs of the family spec/42_serial_to_can.md: the steps of S2C, one cycle of it, and the round trip of a payload
through both pipelines. -/

namespace Sys2Proof.Proofs

open Sys2Proof.Machine

/-- What S2C.CAPTURE leaves when the window `W` and the surplus `X` stood in SRXQ (R121). -/
def s2cCaptured (W : SerialFrame) (X : List Byte) (s : State) : State :=
  { s with
    s2c := { s.s2c with
      st := .proc, ibuf := W
      status := s.s2c.status ||| (if X = [] then 0x00 else 0x20)
      evt := s.s2c.evt ++ surplusEvent X }
    srxq := [] }

/-- What S2C's processing step leaves of the window `W` (R122, R123): CANOUT is written, and so cleared, only when the
checksum agrees. -/
def s2cProcessed (W : SerialFrame) (w : CanWrite) (s : State) : State :=
  { s with
    s2c := { S2C.zero with
      canout := if cksum8 W.pay = W.ck then CanFrame.zero else s.s2c.canout
      status := s.s2c.status ||| (if cksum8 W.pay ≠ W.ck then 0x10 else if w = .fail then 0x08 else 0x00)
      evt := s.s2c.evt ++ (if cksum8 W.pay ≠ W.ck then [.checksumMismatch (cksum8 W.pay) W.ck]
        else if w = .fail then [.transportWriteError none] else []) }
    ctx := s.ctx ++ (if cksum8 W.pay = W.ck ∧ w = .ok then [cfFrame s.par.canTxId W.pay] else []) }

/-- The model's capture, with the queue cut into the window and the surplus. -/
theorem s2cTake_eq_s2cCaptured {s : State} {W : SerialFrame} {X : List Byte} (queue : s.srxq = W.bytes ++ X) :
    s2cTake s = s2cCaptured W X s := by
  rw [s2cTake_eq, queue, SerialFrame.window_bytes_append]
  cases X with
  | nil => simp [s2cCaptured]
  | cons b X => simp [s2cCaptured, setFlag_framing_s2c]

theorem exec_s2cCapture_of_wait {s : State} {W : SerialFrame} {X : List Byte} (waits : s.s2c.st = .wait)
    (queue : s.srxq = W.bytes ++ X) : exec .s2cCapture s = .next (s2cCaptured W X s) := by
  have enough : 11 ≤ srxCount s := by simp [srxCount, queue]
  rw [← s2cTake_eq_s2cCaptured queue]
  exact if_pos ⟨waits, enough⟩

/-- The phases of R122, for either draw. -/
theorem exec_s2cFwd_of_proc {s : State} {W : SerialFrame} (proc : s.s2c.st = .proc) (window : s.s2c.ibuf = W)
    (agree : cksum8 W.pay = W.ck) (w : CanWrite) : exec (.s2cFwd W w) s = .next (s2cProcessed W w s) := by
  calc exec (.s2cFwd W w) s
    _ = .next (s2cClear (s2cWrite w (s2cBuild (s2cChecksum s)))) := if_pos ⟨proc, window, agree⟩
    _ = .next (s2cProcessed W w s) := by
      cases w <;> simp [s2cProcessed, agree, window, s2cChecksum, accRun_eq, s2cBuild, s2cWrite_eq, s2cClear, S2C.zero,
        setFlag_write_s2c, setAcc, raise]

/-- The phases of R123. -/
theorem exec_s2cDrop_of_proc {s : State} {W : SerialFrame} (proc : s.s2c.st = .proc) (window : s.s2c.ibuf = W)
    (differ : cksum8 W.pay ≠ W.ck) (w : CanWrite) : exec (.s2cDrop W) s = .next (s2cProcessed W w s) := by
  calc exec (.s2cDrop W) s
    _ = .next (s2cDropClear (raise .s2c (.checksumMismatch (acc .s2c (s2cChecksum s)) W.ck) (s2cChecksum s))) :=
      if_pos ⟨proc, window, differ⟩
    _ = .next (s2cProcessed W w s) := by
      simp [s2cProcessed, differ, window, s2cChecksum, accRun_eq, s2cDropClear, S2C.zero,
        setFlag_mismatch_s2c, setAcc, raise, acc]

/-- R25, R77: whichever the class of the window, its step leaves the processed state. -/
theorem exec_classifyWindow_of_proc {s : State} {W : SerialFrame} (proc : s.s2c.st = .proc) (window : s.s2c.ibuf = W)
    (w : CanWrite) : exec (classifyWindow W w) s = .next (s2cProcessed W w s) := by
  by_cases agree : cksum8 W.pay = W.ck
  · rw [(classifyWindow_eq_fwd_iff W w).mpr agree, exec_s2cFwd_of_proc proc window agree]
  · rw [(classifyWindow_eq_drop_iff W w).mpr agree, exec_s2cDrop_of_proc proc window agree]

/-- The same with the window put in place: what IBUF held and where S2C stood leave no trace. -/
theorem exec_classifyWindow_of_loaded (s : State) (W : SerialFrame) (w : CanWrite) :
    exec (classifyWindow W w) { s with s2c := { s.s2c with st := .proc, ibuf := W } } = .next (s2cProcessed W w s) :=
  exec_classifyWindow_of_proc (s := { s with s2c := { s.s2c with st := .proc, ibuf := W } }) rfl rfl w

/-- Settles O25 (R120): the guard is the hypotheses, and the step answers the state it was given. -/
theorem s2cPollChangesNothing : Obligations.S2cPollChangesNothing :=
  fun _ waits few => if_pos ⟨waits, few⟩

/-- Settles O26 (R121): an empty surplus leaves STATUS and the record, any other is counted on them. -/
theorem s2cCaptureTakesWindowAndDrains : Obligations.S2cCaptureTakesWindowAndDrains := by
  intro s W X waits queue
  rw [exec_s2cCapture_of_wait waits queue]
  cases X with
  | nil => simp [s2cCaptured]
  | cons b X => simp [s2cCaptured]

/-- Settles O27 (R122): the processed state of a window whose checksum agrees, for each of the two draws. -/
theorem s2cFwdWritesAndClears : Obligations.S2cFwdWritesAndClears := by
  intro s W proc window agree
  constructor
  · rw [exec_s2cFwd_of_proc proc window agree]
    simp [s2cProcessed, agree, S2C.zero, SerialFrame.zero, CanFrame.zero, Payload.zero, cfFrame, canDlcTx]
  · rw [exec_s2cFwd_of_proc proc window agree]
    simp [s2cProcessed, agree, S2C.zero, SerialFrame.zero, CanFrame.zero, Payload.zero]

/-- Settles O28 (R123): the processed state of a window whose checksum differs. -/
theorem s2cDropRecordsAndClears : Obligations.S2cDropRecordsAndClears := by
  intro s W proc window differ
  rw [exec_s2cDrop_of_proc proc window differ .ok]
  simp [s2cProcessed, differ, S2C.zero, SerialFrame.zero, Payload.zero]

/-- Settles O30 (R124): neither the class of a window nor the processed state reads the bytes at offsets 0 and 1. -/
theorem headerBytesAreNotChecked : Obligations.HeaderBytesAreNotChecked := by
  intro s h l h' l' p c w
  refine ⟨_, _, decode_window_bytes _ w, decode_window_bytes _ w, ?_, ?_⟩
  · rw [classifyWindow_eq_fwd_iff, classifyWindow_eq_fwd_iff]
  · rw [exec_classifyWindow_of_loaded, exec_classifyWindow_of_loaded]
    rfl

/-- A step takes the turn placed first and runs what that turn runs. -/
theorem step_of_sched {s : State} {x : Turn} {r : List Turn} (sched : s.sched = x :: r) :
    step s = turnRuns x { s with sched := r } := by
  rw [step_eq_turnRuns, takeTurn_cons sched]

theorem s2cRuns_of_window {u : State} {W : SerialFrame} {X : List Byte} (waits : u.s2c.st = .wait)
    (queue : u.srxq = W.bytes ++ X) (w : CanWrite) : s2cRuns w u = exec .s2cCapture u := by
  simp [s2cRuns, waits, queue]

theorem s2cRuns_of_proc {u : State} (proc : u.s2c.st = .proc) (w : CanWrite) :
    s2cRuns w u = exec (classifyWindow u.s2c.ibuf w) u := by
  simp only [s2cRuns, proc]

theorem step_s2cCapture {s : State} {W : SerialFrame} {X : List Byte} {w : CanWrite} {r : List Turn}
    (sched : s.sched = .s2c w :: r) (waits : s.s2c.st = .wait) (queue : s.srxq = W.bytes ++ X) :
    step s = .next (s2cCaptured W X { s with sched := r }) := by
  calc step s
    _ = s2cRuns w { s with sched := r } := step_of_sched sched
    _ = exec .s2cCapture { s with sched := r } := s2cRuns_of_window (u := { s with sched := r }) waits queue w
    _ = _ := exec_s2cCapture_of_wait waits queue

theorem step_s2cProcess {s : State} {w : CanWrite} {r : List Turn} (sched : s.sched = .s2c w :: r)
    (proc : s.s2c.st = .proc) : step s = .next (s2cProcessed s.s2c.ibuf w { s with sched := r }) := by
  calc step s
    _ = s2cRuns w { s with sched := r } := step_of_sched sched
    _ = exec (classifyWindow s.s2c.ibuf w) { s with sched := r } := s2cRuns_of_proc (u := { s with sched := r }) proc w
    _ = _ := exec_classifyWindow_of_proc (s := { s with sched := r }) proc rfl w

theorem step_srxPush {s : State} {b : Byte} {r : List Turn} (sched : s.sched = .srxPush b :: r)
    (room : hasRoom s.par.rxqDepth s.srxq.length = true) :
    step s = .next { s with srxq := s.srxq ++ [b], sched := r } := by
  calc step s
    _ = .next (srxPush b { s with sched := r }) := step_of_sched sched
    _ = _ := congrArg _ (srxPush_of_room (s := { s with sched := r }) room)

/-- Bytes pushed one after the other stand behind SRXQ in the order of their turns, if they fit (R49). -/
theorem runSteps_srxPushes (bs : List Byte) {s : State} {r : List Turn} (sched : s.sched = bs.map .srxPush ++ r)
    (fits : withinDepth s.par.rxqDepth (s.srxq.length + bs.length)) :
    runSteps bs.length s = .next { s with srxq := s.srxq ++ bs, sched := r } := by
  induction bs generalizing s with
  | nil =>
    rw [← show s.sched = r from sched, List.append_nil]
    rfl
  | cons b bs ih =>
    have room : hasRoom s.par.rxqDepth s.srxq.length = true :=
      (hasRoom_iff _ _).mpr fun d depth => Nat.lt_of_lt_of_le (by simp) (fits d depth)
    have fitsRest : withinDepth s.par.rxqDepth ((s.srxq ++ [b]).length + bs.length) := by
      simpa [Nat.add_assoc, Nat.add_comm 1] using fits
    rw [List.length_cons, runSteps_succ (step_srxPush sched room), ih rfl fitsRest, List.append_cons s.srxq b bs]

/-- One cycle of S2C from any waiting state: what is captured first is processed last, and the bytes pushed in between
wait in SRXQ. -/
theorem runSteps_s2cCycle {s : State} {W : SerialFrame} {X bs : List Byte} {v w : CanWrite} {r : List Turn}
    (waits : s.s2c.st = .wait) (queue : s.srxq = W.bytes ++ X) (fits : withinDepth s.par.rxqDepth bs.length)
    (sched : s.sched = .s2c v :: (bs.map .srxPush ++ .s2c w :: r)) :
    runSteps (bs.length + 2) s = .next (s2cProcessed W w { s2cCaptured W X s with srxq := bs, sched := r }) := by
  have pushes := runSteps_srxPushes bs (s := s2cCaptured W X { s with sched := bs.map .srxPush ++ .s2c w :: r }) rfl
    (by simpa [s2cCaptured] using fits)
  calc runSteps (bs.length + 2) s
    _ = runSteps (bs.length + 1) (s2cCaptured W X { s with sched := bs.map .srxPush ++ .s2c w :: r }) :=
      runSteps_succ (step_s2cCapture sched waits queue) _
    _ = runSteps 1 { s2cCaptured W X s with srxq := bs, sched := .s2c w :: r } := runSteps_add 1 pushes
    _ = _ := runSteps_succ (step_s2cProcess rfl rfl) 0

/-- Settles O31 (R125): the fields of the state one cycle leaves; a dropped window leaves CANOUT, which was zero. -/
theorem s2cCycle : Obligations.S2cCycle := by
  intro s W X bs v w r waits quiet queue fits sched
  obtain ⟨canoutZero, -, -⟩ := quiet
  refine ⟨_, runSteps_s2cCycle waits queue fits sched, rfl, ⟨?_, rfl, fun _ => rfl⟩, rfl, rfl, rfl, rfl, rfl, rfl, rfl,
    rfl, rfl⟩
  show (if cksum8 W.pay = W.ck then CanFrame.zero else s.s2c.canout) = CanFrame.zero
  rw [canoutZero, ite_self]

theorem c2sRuns_of_frame {u : State} {F : CanFrame} {rest : List Item} (waits : u.c2s.st = .wait)
    (queue : u.crxq = .frame F :: rest) (k : Fin 12) : c2sRuns k u = exec (.c2sRecv F) u := by
  simp only [c2sRuns, waits, queue]

theorem c2sRuns_of_proc {u : State} (proc : u.c2s.st = .proc) (k : Fin 12) : c2sRuns k u = exec (.c2sProc k) u := by
  simp only [c2sRuns, proc]

theorem step_c2sRecv {s : State} {F : CanFrame} {rest : List Item} {k : Fin 12} {r : List Turn}
    (sched : s.sched = .c2s k :: r) (waits : s.c2s.st = .wait) (queue : s.crxq = .frame F :: rest) :
    step s = .next { s with c2s := { s.c2s with canin := F, st := .proc }, crxq := rest, sched := r } := by
  calc step s
    _ = c2sRuns k { s with sched := r } := step_of_sched sched
    _ = exec (.c2sRecv F) { s with sched := r } := c2sRuns_of_frame (u := { s with sched := r }) waits queue k
    _ = _ := c2sRecvLatchesTheFrame { s with sched := r } F rest waits queue

theorem step_c2sProc {s : State} {k : Fin 12} {r : List Turn} (sched : s.sched = .c2s k :: r)
    (proc : s.c2s.st = .proc) : step s = .next (c2sClear (c2sTransmit k { s with sched := r })) := by
  calc step s
    _ = c2sRuns k { s with sched := r } := step_of_sched sched
    _ = exec (.c2sProc k) { s with sched := r } := c2sRuns_of_proc (u := { s with sched := r }) proc k
    _ = _ := exec_c2sProc_of_proc (s := { s with sched := r }) proc k

/-- One whole cycle of C2S with every byte accepted: STX grows by the frame of the payload; S2C, SRXQ and CTX are as they
were. -/
theorem runSteps_c2sCycle {s : State} {F : CanFrame} {rest : List Item} {j : Fin 12} {r : List Turn}
    (waits : s.c2s.st = .wait) (queue : s.crxq = .frame F :: rest) (sched : s.sched = .c2s j :: .c2s 11 :: r) :
    runSteps 2 s = .next { s with
      c2s := { C2S.zero with status := s.c2s.status, evt := s.c2s.evt }
      crxq := rest, stx := s.stx ++ (sfFrame F.data).bytes, sched := r } := by
  calc runSteps 2 s
    _ = runSteps 1 { s with c2s := { s.c2s with canin := F, st := .proc }, crxq := rest, sched := .c2s 11 :: r } :=
      runSteps_succ (step_c2sRecv sched waits queue) 1
    _ = .next (c2sClear (c2sTransmit 11 { s with
          c2s := { s.c2s with canin := F, st := .proc }, crxq := rest, sched := r })) :=
      runSteps_succ (step_c2sProc rfl rfl) 0
    _ = _ := by rw [c2sClear_c2sTransmit]; rfl

/-- A frame whose bytes reach an empty SRXQ whole and alone is captured as the window and processed. -/
theorem runSteps_carried {s : State} {W : SerialFrame} {v w : CanWrite} {r : List Turn} (waits : s.s2c.st = .wait)
    (silent : s.srxq = []) (fits : withinDepth s.par.rxqDepth 11)
    (sched : s.sched = W.bytes.map .srxPush ++ .s2c v :: .s2c w :: r) :
    runSteps 13 s = .next (s2cProcessed W w (s2cCaptured W [] { s with sched := r })) := by
  have pushes := runSteps_srxPushes W.bytes sched (by simpa [silent] using fits)
  calc runSteps (W.bytes.length + 2) s
    _ = runSteps 2 { s with srxq := s.srxq ++ W.bytes, sched := .s2c v :: .s2c w :: r } := runSteps_add 2 pushes
    _ = _ := runSteps_s2cCycle (X := []) (bs := []) waits (by simp [silent]) (by simp [withinDepth]) rfl

/-- Settles O32 (R126): the bytes are those of the frame C2S builds, whose checksum is that of its payload, so S2C forwards
them. -/
theorem roundTrip : Obligations.RoundTrip := by
  intro F
  refine ⟨(sfFrame F.data).bytes, rfl, ?_⟩
  intro s rest j v r c2sWaits s2cWaits queue silent fits sched
  have sent := runSteps_c2sCycle c2sWaits queue sched
  refine ⟨_, (runSteps_add 13 sent).trans (runSteps_carried s2cWaits silent fits rfl), rfl, ?_⟩
  have agree : cksum8 (sfFrame F.data).pay = (sfFrame F.data).ck := rfl
  simp only [s2cProcessed, agree, and_self, if_true]
  rfl

end Sys2Proof.Proofs

/-! Proofs of the family spec/60_exceptions.md: what raising an event does. -/

namespace Sys2Proof.Proofs

open Sys2Proof.Machine

/-- The mask of settable bits (R19) hides no flag of an event the pipeline can raise: the flag set is bit `eventCode e`. -/
theorem setFlag_of_raisable {P : Pipe} {e : Event} (legal : raisable P e = true) (status : BitVec 8) :
    setFlag P e status = status ||| (1#8 <<< eventCode e) :=
  match P, e, legal with
  | .c2s, .transportOpenError, _ => setFlag_open_c2s status
  | .c2s, .transportReadError, _ => setFlag_read_c2s status
  | .c2s, .transportWriteError k, _ => setFlag_write_c2s k status
  | .s2c, .transportOpenError, _ => setFlag_open_s2c status
  | .s2c, .transportWriteError k, _ => setFlag_write_s2c k status
  | .s2c, .checksumMismatch c r, _ => setFlag_mismatch_s2c c r status
  | .s2c, .framingAmbiguity m, _ => setFlag_framing_s2c m status

/-- Settles O38 (R146): the frame is that of `raise`, and the flag it sets is the event's own bit. -/
theorem raiseRecordsAndFlags : Obligations.RaiseRecordsAndFlags := by
  intro e s
  refine ⟨fun legal => ?_, fun legal => ?_⟩
  · rw [raise, setFlag_of_raisable legal]
  · rw [raise, setFlag_of_raisable legal]

end Sys2Proof.Proofs

/-! Proofs of the family spec/70_reset_and_hazards.md: what RESET writes, and a block halted by a failed start. -/

namespace Sys2Proof.Proofs

open Sys2Proof.Machine

theorem exec_reset (openOk : Bool) (s : State) : exec (.reset openOk) s = .next (resetBlock openOk s) := rfl

/-- Settles O35 (R170): the two columns of R27's table; the turns still to come and the count of free turns stay. -/
theorem resetSetsEveryPieceOfState : Obligations.ResetSetsEveryPieceOfState := by
  intro s openOk
  refine ⟨s.sched, s.tick, ?_⟩
  rw [exec_reset, resetBlock_eq]
  cases openOk with
  | false => rfl
  | true => rfl

theorem crxPush_of_room {x : Item} {s : State} (room : hasRoom s.par.crxqDepth s.crxq.length = true) :
    crxPush x s = { s with crxq := s.crxq ++ [x] } := by
  obtain ⟨-, appended⟩ | ⟨full, -⟩ := crxPush_cases x s
  · exact appended
  · exact absurd room (by simp [full])

/-- Neither receive queue has a depth (R49, R50), so no push is lost. -/
def QueuesUnbounded (s : State) : Prop := s.par.rxqDepth = none ∧ s.par.crxqDepth = none

/-- Both pipelines are in HALT, as a failed start leaves them (R171). -/
def BothHalted (s : State) : Prop := s.c2s.st = .halt ∧ s.s2c.st = .halt

/-- What these turns add to unbounded queues while nothing is consumed: bytes behind SRXQ, items behind CRXQ. -/
def received (ts : List Turn) (s : State) : State :=
  { s with srxq := s.srxq ++ ts.filterMap turnByte, crxq := s.crxq ++ ts.filterMap turnItem }

/-- A turn that delivers nothing adds nothing. -/
theorem received_of_idle {x : Turn} (noByte : turnByte x = none) (noItem : turnItem x = none) (s : State) :
    received [x] s = s := by
  simp [received, noByte, noItem]

theorem received_of_byte {x : Turn} {b : Byte} (byte : turnByte x = some b) (noItem : turnItem x = none) (s : State) :
    received [x] s = { s with srxq := s.srxq ++ [b] } := by
  simp [received, byte, noItem]

theorem received_of_item {x : Turn} {y : Item} (noByte : turnByte x = none) (item : turnItem x = some y) (s : State) :
    received [x] s = { s with crxq := s.crxq ++ [y] } := by
  simp [received, noByte, item]

theorem received_append (ts us : List Turn) (s : State) : received (ts ++ us) s = received us (received ts s) := by
  simp only [received, List.filterMap_append, List.append_assoc]

/-- Of a halted block only the environment's pushes run; a pipeline's turn is spent in vain. -/
theorem turnRuns_of_halted {x : Turn} {u : State} (halted : BothHalted u) (unbounded : QueuesUnbounded u)
    (noReset : turnOfReset x = false) : turnRuns x u = .next (received [x] u) := by
  obtain ⟨c2sHalted, s2cHalted⟩ := halted
  obtain ⟨srxUnbounded, crxUnbounded⟩ := unbounded
  have srxRoom : hasRoom u.par.rxqDepth u.srxq.length = true := by simp [srxUnbounded]
  have crxRoom : hasRoom u.par.crxqDepth u.crxq.length = true := by simp [crxUnbounded]
  cases x with
  | c2s k => simp only [turnRuns, c2sRuns, c2sHalted, received_of_idle (x := .c2s k) rfl rfl]
  | s2c w => simp only [turnRuns, s2cRuns, s2cHalted, received_of_idle (x := .s2c w) rfl rfl]
  | srxPush b =>
    rw [received_of_byte (x := .srxPush b) rfl rfl, ← srxPush_of_room srxRoom]
    rfl
  | crxPush F =>
    rw [received_of_item (x := .crxPush F) rfl rfl, ← crxPush_of_room crxRoom]
    rfl
  | crxPushErr =>
    rw [received_of_item (x := .crxPushErr) rfl rfl, ← crxPush_of_room crxRoom]
    rfl
  | reset openOk => cases noReset

/-- A halted block stays as it is but for its receive queues, which fill in the order of the turns (R171). -/
theorem runSteps_of_halted (ts : List Turn) {s : State} {r : List Turn} (halted : BothHalted s)
    (unbounded : QueuesUnbounded s) (sched : s.sched = ts ++ r) (noReset : ∀ x ∈ ts, turnOfReset x = false) :
    runSteps ts.length s = .next (received ts { s with sched := r }) := by
  induction ts generalizing s with
  | nil => simp [runSteps, received, ← show s.sched = r from sched]
  | cons x ts ih =>
    obtain ⟨xNoReset, tsNoReset⟩ := List.forall_mem_cons.mp noReset
    have first : step s = .next (received [x] { s with sched := ts ++ r }) :=
      (step_of_sched sched).trans (turnRuns_of_halted halted unbounded xNoReset)
    calc runSteps (ts.length + 1) s
      _ = runSteps ts.length (received [x] { s with sched := ts ++ r }) := runSteps_succ first _
      _ = .next (received ts (received [x] { s with sched := r })) := ih halted unbounded rfl tsNoReset
      _ = .next (received (x :: ts) { s with sched := r }) := by rw [← received_append, List.singleton_append]

theorem step_reset {s : State} {openOk : Bool} {r : List Turn} (sched : s.sched = .reset openOk :: r) :
    step s = .next (resetBlock openOk { s with sched := r }) :=
  step_of_sched sched

/-- Settles O36 (R171): RESET leaves the block halted with every queue empty, and from there only the receive queues
change. -/
theorem openFailureHaltsUntilReset : Obligations.OpenFailureHaltsUntilReset := by
  intro s ts r srxUnbounded crxUnbounded sched noReset
  have run : runSteps (ts.length + 1) s = .next (received ts (resetBlock false { s with sched := r })) := by
    calc runSteps (ts.length + 1) s
      _ = runSteps ts.length (resetBlock false { s with sched := ts ++ r }) := runSteps_succ (step_reset sched) _
      _ = _ := runSteps_of_halted ts ⟨rfl, rfl⟩ ⟨srxUnbounded, crxUnbounded⟩ rfl noReset
  rw [resetBlock_eq] at run
  exact ⟨_, run, rfl, rfl, rfl, rfl, rfl, rfl, rfl, rfl, List.nil_append _, List.nil_append _, rfl⟩

end Sys2Proof.Proofs

/-! Proofs of the family of the whole model: the decoder and the encoder at every place, the table's words, and what the
checksum detects. -/

namespace Sys2Proof.Proofs

/-! ### Decoding what was encoded -/

theorem decode_stx_bytes (f : SerialFrame) (k : Fin 12) : decode (.stx k) f.bytes = checkSfTx f k := rfl

theorem decode_ctx_bytes (F : CanFrame) (w : CanWrite) : decode (.ctx w) F.bytes = checkCfTx F w :=
  congrArg (Except.bind · (checkCfTx · w)) (CanFrame.ofBytes_bytes F)

theorem decode_crx_bytes (F : CanFrame) : decode .crx F.bytes = .ok (.envCrxPush F) :=
  congrArg (Except.map Instr.envCrxPush) (CanFrame.ofBytes_bytes F)

/-- The frame C2S builds passes every check of the output format (R72, R74). -/
theorem checkSfTx_sfFrame (p : Payload) (k : Fin 12) : checkSfTx (sfFrame p) k = .ok (.sfTx p k) := by
  simp [checkSfTx, sfFrame]

/-- The frame S2C builds passes the check of the output format (R76). -/
theorem checkCfTx_cfFrame (id : BitVec 11) (d : Payload) (w : CanWrite) :
    checkCfTx (cfFrame id d) w = .ok (.cfTx id d w) := by
  simp [checkCfTx, cfFrame]

/-- Settles O10: only a window is classified by what it holds, and there well-formedness is the decoder's test. -/
theorem decodeUndoesEncode : Obligations.DecodeUndoesEncode := by
  intro i wf
  cases i with
  | s2cFwd W w =>
    have agree : cksum8 W.pay = W.ck := of_decide_eq_true wf
    rw [encode, decode_window_bytes, (classifyWindow_eq_fwd_iff W w).mpr agree]
  | s2cDrop W =>
    have differ : cksum8 W.pay ≠ W.ck := of_decide_eq_true wf
    rw [encode, decode_window_bytes, (classifyWindow_eq_drop_iff W .ok).mpr differ]
  | c2sRecv F => exact decode_item_bytes F
  | c2sRderr => rfl
  | sfTx p k => exact (decode_stx_bytes (sfFrame p) k).trans (checkSfTx_sfFrame p k)
  | cfTx id d w => exact (decode_ctx_bytes (cfFrame id d) w).trans (checkCfTx_cfFrame id d w)
  | c2sProc k => exact Machine.drawOf_ofNat k
  | s2cPoll => rfl
  | s2cCapture => rfl
  | ckSum8 p => rfl
  | ckClr P => rfl
  | ckAdd P b => rfl
  | envSrxPush b => rfl
  | envCrxPush F => exact decode_crx_bytes F
  | envCrxPusherr => rfl
  | reset openOk => cases openOk <;> rfl

/-! ### Bytes that decode -/

theorem except_map_eq_ok_iff {ε α β : Type} {f : α → β} {x : Except ε α} {b : β} :
    x.map f = .ok b ↔ ∃ a, x = .ok a ∧ f a = b := by
  cases x <;> simp [Except.map]

theorem except_bind_eq_ok_iff {ε α β : Type} {f : α → Except ε β} {x : Except ε α} {b : β} :
    x.bind f = .ok b ↔ ∃ a, x = .ok a ∧ f a = .ok b := by
  cases x <;> simp [Except.bind]

theorem payload_bytes_of_ofBytes {q : List Byte} {p : Payload} (h : Payload.ofBytes q = .ok p) : p.bytes = q := by
  unfold Payload.ofBytes at h
  split at h
  · cases h; rfl
  · cases h

theorem serialFrame_bytes_of_ofBytes {q : List Byte} {f : SerialFrame} (h : SerialFrame.ofBytes q = .ok f) :
    f.bytes = q := by
  unfold SerialFrame.ofBytes at h
  split at h
  · cases h; rfl
  · cases h

/-- A byte whose bit 7 is 0 is a zero bit and its low 7 bits. -/
theorem zero_append_low {h : Byte} (stray : h.extractLsb' 7 1 = 0) : (0 : BitVec 1) ++ h.extractLsb' 0 7 = h := by
  rw [← stray]
  exact join_parts (m := 1) (n := 7) h

/-- The first two bytes of a record are its identifier and length code again (R75). -/
theorem canFrame_bytes_of_ofBytes {q : List Byte} {F : CanFrame} (h : CanFrame.ofBytes q = .ok F) : F.bytes = q := by
  unfold CanFrame.ofBytes at h
  split at h
  · next hi lo b0 b1 b2 b3 b4 b5 b6 b7 =>
    split at h
    · next stray =>
      cases h
      have idHigh := extract_high (hi.extractLsb' 0 7) (lo.extractLsb' 4 4)
      have idLow := extract_low (hi.extractLsb' 0 7) (lo.extractLsb' 4 4)
      have first : (0 : BitVec 1) ++ (hi.extractLsb' 0 7 ++ lo.extractLsb' 4 4).extractLsb' 4 7 = hi :=
        (congrArg _ idHigh).trans (zero_append_low stray)
      have second : (hi.extractLsb' 0 7 ++ lo.extractLsb' 4 4).extractLsb' 0 4 ++ lo.extractLsb' 0 4 = lo :=
        (congrArg (· ++ lo.extractLsb' 0 4) idLow).trans (join_parts (m := 4) (n := 4) lo)
      exact congrArg₂ (fun x y => x :: y :: [b0, b1, b2, b3, b4, b5, b6, b7]) first second
    · cases h
  · cases h

theorem of_bare_eq_ok {i j : Instr} {q : List Byte} (h : bare j q = .ok i) : q = [] ∧ j = i := by
  cases q with
  | nil => exact ⟨rfl, Except.ok.inj h⟩
  | cons => cases h

theorem of_oneByte_eq_ok {f : Byte → Except Reject Instr} {i : Instr} {q : List Byte} (h : oneByte f q = .ok i) :
    ∃ b, q = [b] ∧ f b = .ok i := by
  match q, h with
  | [b], h => exact ⟨b, rfl, h⟩

theorem encode_of_drawOf {b : Byte} {i : Instr} (h : drawOf b = .ok i) : (encode i).2 = [b] := by
  unfold drawOf at h
  split at h
  · cases h
    simp [encode]
  · cases h

theorem encode_of_flagOf {b : Byte} {i : Instr} (h : flagOf b = .ok i) : (encode i).2 = [b] := by
  unfold flagOf at h
  split at h
  · next zero => cases h; simp [encode, zero]
  · split at h
    · next one => cases h; simp [encode, one]
    · cases h

theorem encode_classifyWindow (W : SerialFrame) (w : CanWrite) : (encode (classifyWindow W w)).2 = W.bytes := by
  unfold classifyWindow
  split <;> rfl

/-- The checks of the output format leave one frame for a payload (R72, R74). -/
theorem encode_of_checkSfTx {f : SerialFrame} {k : Fin 12} {i : Instr} (h : checkSfTx f k = .ok i) :
    (encode i).2 = f.bytes := by
  unfold checkSfTx at h
  split at h
  · next header =>
    split at h
    · next sum =>
      cases h
      rw [encode, sfFrame, ← header.1, ← header.2, ← sum]
    · cases h
  · cases h

theorem encode_of_checkCfTx {F : CanFrame} {w : CanWrite} {i : Instr} (h : checkCfTx F w = .ok i) :
    (encode i).2 = F.bytes := by
  unfold checkCfTx at h
  split at h
  · next eight =>
    cases h
    rw [encode, cfFrame, ← eight]
  · cases h

/-- At the places of a CAN record the decoder reads the record and no more. -/
theorem encode_of_map_ofBytes {f : CanFrame → Instr} (bytes : ∀ F, (encode (f F)).2 = F.bytes) {q : List Byte} {i : Instr}
    (h : (CanFrame.ofBytes q).map f = .ok i) : (encode i).2 = q := by
  obtain ⟨F, read, rfl⟩ := except_map_eq_ok_iff.mp h
  rw [bytes, canFrame_bytes_of_ofBytes read]

theorem encode_of_bare {i j : Instr} {q : List Byte} (none : (encode j).2 = []) (h : bare j q = .ok i) :
    (encode i).2 = q := by
  obtain ⟨rfl, rfl⟩ := of_bare_eq_ok h
  exact none

theorem encode_of_oneByte {f : Byte → Except Reject Instr} (one : ∀ b i, f b = .ok i → (encode i).2 = [b])
    {i : Instr} {q : List Byte} (h : oneByte f q = .ok i) : (encode i).2 = q := by
  obtain ⟨b, rfl, hb⟩ := of_oneByte_eq_ok h
  exact one b i hb

/-- Settles O11: each place's reader keeps every bit, and each check lets pass the one value the encoder writes. -/
theorem decodedBytesAreTheEncoding : Obligations.DecodedBytesAreTheEncoding := by
  intro p q i h
  cases p with
  | window w =>
    obtain ⟨W, read, rfl⟩ := except_map_eq_ok_iff.mp h
    rw [encode_classifyWindow, serialFrame_bytes_of_ofBytes read]
  | item =>
    cases q with
    | nil => cases h; rfl
    | cons b q => exact encode_of_map_ofBytes (fun _ => rfl) h
  | stx k =>
    obtain ⟨f, read, checked⟩ := except_bind_eq_ok_iff.mp h
    rw [encode_of_checkSfTx checked, serialFrame_bytes_of_ofBytes read]
  | ctx w =>
    obtain ⟨F, read, checked⟩ := except_bind_eq_ok_iff.mp h
    rw [encode_of_checkCfTx checked, canFrame_bytes_of_ofBytes read]
  | c2sProc => exact encode_of_oneByte (fun _ _ => encode_of_drawOf) h
  | s2cPoll => exact encode_of_bare rfl h
  | s2cCapture => exact encode_of_bare rfl h
  | sum8 =>
    obtain ⟨p, read, rfl⟩ := except_map_eq_ok_iff.mp h
    exact payload_bytes_of_ofBytes read
  | ckClr P => exact encode_of_bare rfl h
  | ckAdd P => exact encode_of_oneByte (fun _ _ hb => by cases hb; rfl) h
  | srx => exact encode_of_oneByte (fun _ _ hb => by cases hb; rfl) h
  | crx => exact encode_of_map_ofBytes (fun _ => rfl) h
  | crxErr => exact encode_of_bare rfl h
  | reset => exact encode_of_oneByte (fun _ _ => encode_of_flagOf) h

/-! ### The table's words -/

theorem natOfBytes_eq_foldl (v : Nat) (q : List Byte) :
    q.foldl (fun v b => v * 256 + b.toNat) v = v * 256 ^ q.length + natOfBytes q := by
  induction q generalizing v with
  | nil => simp [natOfBytes]
  | cons b q ih =>
    rw [natOfBytes, List.foldl_cons, List.foldl_cons, ih, ih (0 * 256 + b.toNat), List.length_cons]
    ring

theorem natOfBytes_cons (b : Byte) (q : List Byte) :
    natOfBytes (b :: q) = b.toNat * 256 ^ q.length + natOfBytes q := by
  rw [natOfBytes, List.foldl_cons, natOfBytes_eq_foldl, Nat.zero_mul, Nat.zero_add]

theorem natOfBytes_lt (q : List Byte) : natOfBytes q < 256 ^ q.length := by
  induction q with
  | nil => simp [natOfBytes]
  | cons b q ih =>
    have byte : b.toNat + 1 ≤ 256 := b.isLt
    calc natOfBytes (b :: q)
      _ < (b.toNat + 1) * 256 ^ q.length := by rw [natOfBytes_cons, Nat.succ_mul]; omega
      _ ≤ 256 ^ (b :: q).length := by
        rw [List.length_cons, Nat.pow_succ, Nat.mul_comm (256 ^ _)]
        exact Nat.mul_le_mul_right _ byte

/-- Of a number's `n` low bytes only those below `256 ^ n` matter. -/
theorem bytesOfNat_mul_pow_add (n m v : Nat) : bytesOfNat n (m * 256 ^ n + v) = bytesOfNat n v := by
  induction n generalizing m with
  | zero => rfl
  | succ n ih =>
    have shift : m * 256 ^ (n + 1) + v = m * 256 * 256 ^ n + v := by ring
    have top : (m * 256 * 256 ^ n + v) / 256 ^ n = m * 256 + v / 256 ^ n := by
      rw [Nat.add_comm, Nat.add_mul_div_right _ _ (by positivity), Nat.add_comm]
    have wrap : BitVec.ofNat 8 (m * 256 + v / 256 ^ n) = BitVec.ofNat 8 (v / 256 ^ n) :=
      BitVec.eq_of_toNat_eq (by simp only [BitVec.toNat_ofNat]; omega)
    rw [shift, bytesOfNat, bytesOfNat, top, wrap, ih]

/-- Bytes written as a number, most significant first, are read back from it. -/
theorem bytesOfNat_natOfBytes (q : List Byte) : bytesOfNat q.length (natOfBytes q) = q := by
  induction q with
  | nil => rfl
  | cons b q ih =>
    have top : (b.toNat * 256 ^ q.length + natOfBytes q) / 256 ^ q.length = b.toNat := by
      rw [Nat.add_comm, Nat.add_mul_div_right _ _ (by positivity), Nat.div_eq_of_lt (natOfBytes_lt q), Nat.zero_add]
    rw [List.length_cons, bytesOfNat, natOfBytes_cons, top, bytesOfNat_mul_pow_add, ih, BitVec.ofNat_toNat,
      BitVec.setWidth_eq]

/-- An 88-bit word is read as a window (R71). -/
theorem decodeTableWord_window (W : SerialFrame) :
    decodeTableWord 88 (natOfBytes W.bytes) = some (classifyWindow W .ok) := by
  have fits : ¬ 2 ^ 88 ≤ natOfBytes W.bytes :=
    Nat.not_le.mpr ((natOfBytes_lt W.bytes).trans_eq (by norm_num))
  have read : bytesOfNat 11 (natOfBytes W.bytes) = W.bytes := bytesOfNat_natOfBytes W.bytes
  simp only [decodeTableWord, tableWord, if_neg fits, if_true, read, Option.bind_some, decode_window_bytes]
  rfl

/-- A 79-bit word is read as a `Frame` item (R75). -/
theorem decodeTableWord_item {F : CanFrame} (fits : natOfBytes F.bytes < 2 ^ 79) :
    decodeTableWord 79 (natOfBytes F.bytes) = some (.c2sRecv F) := by
  have read : bytesOfNat 10 (natOfBytes F.bytes) = F.bytes := bytesOfNat_natOfBytes F.bytes
  have width : ¬ (79 = 88) := by decide
  simp only [decodeTableWord, tableWord, if_neg (Nat.not_le.mpr fits), if_neg width, true_or, if_true, read,
    Option.bind_some, decode_item_bytes]
  rfl

/-- The first two bytes of a record, as a number, are its identifier and its length code. -/
theorem canFrame_header_toNat (id : BitVec 11) (dlc : BitVec 4) :
    ((0 : BitVec 1) ++ id.extractLsb' 4 7).toNat * 256 + (id.extractLsb' 0 4 ++ dlc).toNat
      = id.toNat * 16 + dlc.toNat := by
  have high : ((0 : BitVec 1) ++ id.extractLsb' 4 7).toNat = id.toNat / 16 := by
    have bound := id.isLt
    have zero : (0 : BitVec 1).toNat = 0 := rfl
    rw [BitVec.toNat_append, BitVec.extractLsb'_toNat, Nat.shiftRight_eq_div_pow, zero, Nat.zero_shiftLeft, Nat.zero_or]
    omega
  have low : (id.extractLsb' 0 4 ++ dlc).toNat = id.toNat % 16 * 16 + dlc.toNat := by
    rw [BitVec.toNat_append, Nat.shiftLeft_eq, Nat.mul_comm, ← Nat.two_pow_add_eq_or_of_lt dlc.isLt,
      BitVec.extractLsb'_toNat, Nat.shiftRight_zero, Nat.mul_comm]
  rw [high, low]
  omega

/-- R75's vector `{id, dlc, d0, ..., d7}` is the number a record's ten bytes write. -/
theorem natOfBytes_canFrame (F : CanFrame) : natOfBytes F.bytes =
    ((((((((F.id.toNat * 16 + F.dlc.toNat) * 256 + F.data.b0.toNat) * 256 + F.data.b1.toNat) * 256
      + F.data.b2.toNat) * 256 + F.data.b3.toNat) * 256 + F.data.b4.toNat) * 256 + F.data.b5.toNat) * 256
      + F.data.b6.toNat) * 256 + F.data.b7.toNat := by
  rw [← canFrame_header_toNat]
  simp [natOfBytes, CanFrame.bytes, Payload.bytes]

theorem natOfBytes_canFrame_lt (F : CanFrame) : natOfBytes F.bytes < 2 ^ 79 := by
  rw [natOfBytes_canFrame]
  omega

/-- Settles O13 (R71, R75): a vector is the number its bytes write, from which they are read back. -/
theorem tableVectorsDecode : Obligations.TableVectorsDecode := by
  refine ⟨decodeTableWord_window, fun F => ?_⟩
  rw [← natOfBytes_canFrame]
  exact decodeTableWord_item (natOfBytes_canFrame_lt F)

/-- Settles O12: five words of spec/95_test_vectors.md, by computation. -/
theorem printedWordsDecode : Obligations.PrintedWordsDecode :=
  ⟨rfl, rfl, rfl, rfl, rfl⟩

/-! ### What the checksum detects -/

theorem cksum8_eq_sum (p : Payload) : cksum8 p = p.bytes.sum := by
  simp [cksum8_eq_add, Payload.bytes, add_assoc]

/-- Settles O5 (R94 case d): the checksum is a sum of bytes. -/
theorem checksumIgnoresOrder : Obligations.ChecksumIgnoresOrder := by
  intro p q perm
  rw [cksum8_eq_sum, cksum8_eq_sum, perm.sum_eq]

/-- Adding to one byte of a list adds to its sum. -/
theorem sum_set_getD_add {q : List Byte} {j : Nat} (inside : j < q.length) (d : Byte) :
    (q.set j (q.getD j 0 + d)).sum = q.sum + d := by
  rw [List.sum_set', dif_pos inside, List.getD_eq_getElem _ _ inside, neg_add_cancel_left]

/-- Any two header bytes, 8 payload bytes and a checksum byte are a window; the byte sum decides its class. -/
theorem exists_window (h l : Byte) {q : List Byte} (eight : q.length = 8) (c : Byte) :
    ∃ V : SerialFrame, V.bytes = h :: l :: (q ++ [c]) ∧ cksum8 V.pay = q.sum ∧ V.ck = c := by
  match q, eight with
  | [b0, b1, b2, b3, b4, b5, b6, b7], _ =>
    exact ⟨⟨h, l, ⟨b0, b1, b2, b3, b4, b5, b6, b7⟩, c⟩, rfl, cksum8_eq_sum _, rfl⟩

theorem decode_window_of_ne {V : SerialFrame} (w : CanWrite) (differ : cksum8 V.pay ≠ V.ck) :
    decode (.window w) V.bytes = .ok (.s2cDrop V) := by
  rw [decode_window_bytes, (classifyWindow_eq_drop_iff V w).mpr differ]

theorem decode_window_of_eq {V : SerialFrame} (w : CanWrite) (agree : cksum8 V.pay = V.ck) :
    decode (.window w) V.bytes = .ok (.s2cFwd V w) := by
  rw [decode_window_bytes, (classifyWindow_eq_fwd_iff V w).mpr agree]

/-- Offset `j + 2` of a window is payload byte `j` (R70). -/
theorem bytes_getD_payload (W : SerialFrame) {j : Nat} (inside : j < 8) :
    W.bytes.getD (j + 2) 0 = W.pay.bytes.getD j 0 :=
  List.getD_append _ _ _ _ inside

theorem set_payload (h l c b : Byte) {q : List Byte} {j : Nat} (inside : j < q.length) :
    (h :: l :: (q ++ [c])).set (j + 2) b = h :: l :: (q.set j b ++ [c]) :=
  congrArg (h :: l :: ·) (List.set_append_left _ _ inside)

theorem set_checksum (h l c b : Byte) {q : List Byte} (eight : q.length = 8) :
    (h :: l :: (q ++ [c])).set 10 b = h :: l :: (q ++ [b]) := by
  simp [eight]

/-- Settles O6 (R95 case a): one changed payload byte changes the sum, and a changed checksum is not the sum. -/
theorem oneChangedByteIsDropped : Obligations.OneChangedByteIsDropped := by
  intro W i b w agree low high changed
  have sum : W.pay.bytes.sum = W.ck := by rw [← cksum8_eq_sum, agree]
  obtain ⟨j, rfl⟩ : ∃ j, i = j + 2 := ⟨i - 2, by omega⟩
  by_cases payload : j < 8
  · obtain ⟨V, bytes, pay, ck⟩ := exists_window W.hdr W.len (q := W.pay.bytes.set j b) (by simp) W.ck
    rw [bytes_getD_payload W payload] at changed
    have grown := sum_set_getD_add (q := W.pay.bytes) payload (b - W.pay.bytes.getD j 0)
    rw [add_sub_cancel] at grown
    have set : V.bytes = W.bytes.set (j + 2) b := bytes.trans (set_payload _ _ _ _ payload).symm
    refine ⟨V, set, set ▸ decode_window_of_ne w ?_⟩
    rw [pay, ck, grown, sum, ne_eq, add_eq_left, sub_eq_zero]
    exact Ne.symm changed
  · obtain rfl : j = 8 := by omega
    obtain ⟨V, bytes, pay, ck⟩ := exists_window W.hdr W.len (q := W.pay.bytes) rfl b
    have set : V.bytes = W.bytes.set 10 b := bytes.trans (set_checksum _ _ _ _ rfl).symm
    refine ⟨V, set, set ▸ decode_window_of_ne w ?_⟩
    rw [pay, ck, sum]
    exact changed

/-- An amount moved from one payload byte to another is not detected. -/
theorem moved_amount_passes {W : SerialFrame} (agree : cksum8 W.pay = W.ck) (w : CanWrite) {i j : Nat} (hi : 2 ≤ i ∧ i ≤ 9)
    (hj : 2 ≤ j ∧ j ≤ 9) (apart : i ≠ j) (d : Byte) :
    ∃ V : SerialFrame, V.bytes = (W.bytes.set i (W.bytes.getD i 0 + d)).set j (W.bytes.getD j 0 - d) ∧
      decode (.window w) V.bytes = .ok (.s2cFwd V w) := by
  obtain ⟨a, rfl⟩ : ∃ a, i = a + 2 := ⟨i - 2, by omega⟩
  obtain ⟨b, rfl⟩ : ∃ b, j = b + 2 := ⟨j - 2, by omega⟩
  have ha : a < W.pay.bytes.length := by simp; omega
  have hb : b < (W.pay.bytes.set a (W.pay.bytes.getD a 0 + d)).length := by simp; omega
  have kept : (W.pay.bytes.set a (W.pay.bytes.getD a 0 + d)).getD b 0 = W.pay.bytes.getD b 0 := by
    rw [List.getD_eq_getElem?_getD, List.getElem?_set_ne (by omega), List.getD_eq_getElem?_getD]
  have sum := sum_set_getD_add hb (-d)
  rw [kept, sum_set_getD_add ha, add_neg_cancel_right, ← cksum8_eq_sum, agree, ← sub_eq_add_neg] at sum
  obtain ⟨V, bytes, pay, ck⟩ := exists_window W.hdr W.len
    (q := (W.pay.bytes.set a (W.pay.bytes.getD a 0 + d)).set b (W.pay.bytes.getD b 0 - d)) (by simp) W.ck
  refine ⟨V, ?_, decode_window_of_eq w (by rw [pay, ck, sum])⟩
  rw [bytes_getD_payload W (by simpa using ha), bytes_getD_payload W (by simpa using hb), bytes, ← set_payload _ _ _ _ hb,
    ← set_payload _ _ _ _ ha]
  rfl

/-- An amount added to a payload byte and to the checksum is not detected. -/
theorem matched_amount_passes {W : SerialFrame} (agree : cksum8 W.pay = W.ck) (w : CanWrite) {i : Nat} (hi : 2 ≤ i ∧ i ≤ 9)
    (d : Byte) :
    ∃ V : SerialFrame, V.bytes = (W.bytes.set i (W.bytes.getD i 0 + d)).set 10 (W.ck + d) ∧
      decode (.window w) V.bytes = .ok (.s2cFwd V w) := by
  obtain ⟨a, rfl⟩ : ∃ a, i = a + 2 := ⟨i - 2, by omega⟩
  have ha : a < W.pay.bytes.length := by simp; omega
  have sum := sum_set_getD_add ha d
  rw [← cksum8_eq_sum, agree] at sum
  obtain ⟨V, bytes, pay, ck⟩ := exists_window W.hdr W.len
    (q := W.pay.bytes.set a (W.pay.bytes.getD a 0 + d)) (by simp) (W.ck + d)
  refine ⟨V, ?_, decode_window_of_eq w (by rw [pay, ck, sum])⟩
  rw [bytes_getD_payload W (by simpa using ha), bytes, ← set_checksum _ _ W.ck _ (by simp), ← set_payload _ _ _ _ ha]
  rfl

/-- Settles O7 (R95 case c): swapping two bytes moves their difference from one to the other. -/
theorem cancellingChangesPass : Obligations.CancellingChangesPass := by
  intro W d w agree
  refine ⟨fun i j hi hij hj => ?_, fun i j hi hi' hj hj' apart => ?_, fun i hi hi' => ?_⟩
  · simpa using moved_amount_passes agree w (i := i) (j := j) (by omega) (by omega) (by omega)
      (W.bytes.getD j 0 - W.bytes.getD i 0)
  · exact moved_amount_passes agree w ⟨hi, hi'⟩ ⟨hj, hj'⟩ apart d
  · exact matched_amount_passes agree w ⟨hi, hi'⟩ d

end Sys2Proof.Proofs

/-! Proofs of the family of the whole model: one step. What a turn runs is exactly one of the moves of `Moves`, so a step
is a function of the turn and the state; then what a move does to each pipeline, and the invariants. -/

namespace Sys2Proof.Proofs

open Sys2Proof.Machine

/-! ### A turn runs its move -/

theorem s2cRuns_of_few {u : State} (waits : u.s2c.st = .wait) (few : u.srxq.length < 11) (w : CanWrite) :
    s2cRuns w u = exec .s2cPoll u := by
  simp only [s2cRuns, waits, if_pos few]

theorem s2cRuns_of_enough {u : State} (waits : u.s2c.st = .wait) (enough : 11 ≤ u.srxq.length) (w : CanWrite) :
    s2cRuns w u = exec .s2cCapture u := by
  simp only [s2cRuns, waits, if_neg (Nat.not_lt.mpr enough)]

theorem c2sRuns_of_err {u : State} {rest : List Item} (waits : u.c2s.st = .wait) (queue : u.crxq = .err :: rest)
    (k : Fin 12) : c2sRuns k u = exec .c2sRderr u := by
  simp only [c2sRuns, waits, queue]

theorem crxPush_of_full {x : Item} {s : State} (full : hasRoom s.par.crxqDepth s.crxq.length = false) :
    crxPush x s = s := by
  obtain ⟨room, -⟩ | ⟨-, lost⟩ := crxPush_cases x s
  · exact absurd full (by simp [room])
  · exact lost

/-- In PROC a turn of S2C leaves the processed state of the window held. -/
theorem s2cRuns_eq_processed {u : State} (proc : u.s2c.st = .proc) (w : CanWrite) :
    s2cRuns w u = .next (s2cProcessed u.s2c.ibuf w u) :=
  (s2cRuns_of_proc proc w).trans (exec_classifyWindow_of_proc proc rfl w)

/-- The converse of `moves_of_step`: the move a state allows is what the turn runs there. -/
theorem turnRuns_of_moves {x : Turn} {u t : State} (m : Moves x u t) : turnRuns x u = .next t := by
  cases m with
  | c2sIdle k u waits empty => simp only [turnRuns, c2sRuns, waits, empty]
  | c2sHalted k u halted => simp only [turnRuns, c2sRuns, halted]
  | recv k u F rest waits queue =>
    exact (c2sRuns_of_frame waits queue k).trans (c2sRecvLatchesTheFrame u F rest waits queue)
  | rderr k u rest waits queue =>
    rw [setFlag_read_c2s]
    exact (c2sRuns_of_err waits queue k).trans (c2sRderrRecordsTheReadError u rest waits queue)
  | proc k u proc =>
    rw [turnRuns, c2sRuns_of_proc proc, exec_c2sProc_of_proc proc, c2sTransmit_eq, c2sWrite_eq]
    rfl
  | poll w u waits few => exact (s2cRuns_of_few waits few w).trans (s2cPollChangesNothing u waits few)
  | capture w u waits enough =>
    rw [turnRuns, s2cRuns_of_enough waits enough, ← s2cTake_eq]
    exact if_pos ⟨waits, enough⟩
  | fwdOk u proc agree =>
    rw [turnRuns, s2cRuns_eq_processed proc]
    simp [s2cProcessed, agree, S2C.zero]
  | fwdFail u proc agree =>
    rw [turnRuns, s2cRuns_eq_processed proc, setFlag_write_s2c]
    simp [s2cProcessed, agree, S2C.zero]
  | drop w u proc differ =>
    rw [turnRuns, s2cRuns_eq_processed proc, setFlag_mismatch_s2c]
    simp [s2cProcessed, differ]
  | s2cHalted w u halted => simp only [turnRuns, s2cRuns, halted]
  | srx b u room => exact congrArg _ (srxPush_of_room room)
  | srxLost b u full => exact congrArg _ (srxPush_of_full full)
  | crx F u room => exact congrArg _ (crxPush_of_room room)
  | crxLost F u full => exact congrArg _ (crxPush_of_full full)
  | crxErr u room => exact congrArg _ (crxPush_of_room room)
  | crxErrLost u full => exact congrArg _ (crxPush_of_full full)
  | reset openOk u => rfl

theorem step_eq_next_iff {s t : State} : step s = .next t ↔ Moves (takeTurn s).1 (takeTurn s).2 t :=
  ⟨moves_of_step, fun m => (step_eq_turnRuns s).trans (turnRuns_of_moves m)⟩

theorem step_of_moves {s t : State} {x : Turn} {r : List Turn} (sched : s.sched = x :: r)
    (m : Moves x { s with sched := r } t) : step s = .next t :=
  (step_of_sched sched).trans (turnRuns_of_moves m)

/-- The guards of a turn's moves leave no state out (R11, R79). -/
theorem exists_moves (x : Turn) (u : State) : ∃ t, Moves x u t := by
  cases x with
  | c2s k =>
    cases st : u.c2s.st with
    | wait =>
      match queue : u.crxq with
      | [] => exact ⟨_, .c2sIdle k u st queue⟩
      | .frame F :: rest => exact ⟨_, .recv k u F rest st queue⟩
      | .err :: rest => exact ⟨_, .rderr k u rest st queue⟩
    | proc => exact ⟨_, .proc k u st⟩
    | halt => exact ⟨_, .c2sHalted k u st⟩
  | s2c w =>
    cases st : u.s2c.st with
    | wait =>
      obtain few | enough := Nat.lt_or_ge u.srxq.length 11
      · exact ⟨_, .poll w u st few⟩
      · exact ⟨_, .capture w u st enough⟩
    | proc =>
      by_cases agree : cksum8 u.s2c.ibuf.pay = u.s2c.ibuf.ck
      · cases w with
        | ok => exact ⟨_, .fwdOk u st agree⟩
        | fail => exact ⟨_, .fwdFail u st agree⟩
      · exact ⟨_, .drop w u st agree⟩
    | halt => exact ⟨_, .s2cHalted w u st⟩
  | srxPush b =>
    cases room : hasRoom u.par.rxqDepth u.srxq.length with
    | true => exact ⟨_, .srx b u room⟩
    | false => exact ⟨_, .srxLost b u room⟩
  | crxPush F =>
    cases room : hasRoom u.par.crxqDepth u.crxq.length with
    | true => exact ⟨_, .crx F u room⟩
    | false => exact ⟨_, .crxLost F u room⟩
  | crxPushErr =>
    cases room : hasRoom u.par.crxqDepth u.crxq.length with
    | true => exact ⟨_, .crxErr u room⟩
    | false => exact ⟨_, .crxErrLost u room⟩
  | reset openOk => exact ⟨_, .reset openOk u⟩

/-- Settles O18 (R11, R79, R172): some move is always possible, and a step makes it. -/
theorem everyStepAnswersNext : Obligations.EveryStepAnswersNext := by
  intro s
  obtain ⟨t, m⟩ := exists_moves (takeTurn s).1 (takeTurn s).2
  exact ⟨t, step_eq_next_iff.mpr m⟩

/-- Settles O14: the branches of `step` and of `takeTurn`. -/
theorem stepRunsTheDecodedInstruction : Obligations.StepRunsTheDecodedInstruction := by
  intro s
  refine ⟨fun p q i fetched decoded => ?_, fun idle => ?_, fun x r sched => takeTurn_cons sched, fun empty => ?_⟩
  · simp only [step, fetched, decoded]
  · simp only [step, idle]
  · simp only [takeTurn, empty]

/-- Settles O15: C2S's table (R103 for the idle and the halted pipeline). -/
theorem c2sTurnRunsItsEnabledStep : Obligations.C2sTurnRunsItsEnabledStep := by
  intro s k r sched
  rw [step_of_sched sched]
  refine ⟨fun F rest waits queue => ?_, fun rest waits queue => ?_, fun waits empty => ?_, fun proc => ?_, fun halted => ?_⟩
  · exact c2sRuns_of_frame (u := { s with sched := r }) waits queue k
  · exact c2sRuns_of_err (u := { s with sched := r }) waits queue k
  · exact turnRuns_of_moves (.c2sIdle k { s with sched := r } waits empty)
  · exact c2sRuns_of_proc (u := { s with sched := r }) proc k
  · exact turnRuns_of_moves (.c2sHalted k { s with sched := r } halted)

/-- Settles O16: S2C's table; in PROC the class of the window decides. -/
theorem s2cTurnRunsItsEnabledStep : Obligations.S2cTurnRunsItsEnabledStep := by
  intro s w r sched
  rw [step_of_sched sched]
  refine ⟨fun waits few => ?_, fun waits enough => ?_, fun proc agree => ?_, fun proc differ => ?_, fun halted => ?_⟩
  · exact s2cRuns_of_few (u := { s with sched := r }) waits few w
  · exact s2cRuns_of_enough (u := { s with sched := r }) waits enough w
  · rw [← (classifyWindow_eq_fwd_iff s.s2c.ibuf w).mpr agree]
    exact s2cRuns_of_proc (u := { s with sched := r }) proc w
  · rw [← (classifyWindow_eq_drop_iff s.s2c.ibuf w).mpr differ]
    exact s2cRuns_of_proc (u := { s with sched := r }) proc w
  · exact turnRuns_of_moves (.s2cHalted w { s with sched := r } halted)

/-- Settles O17 (R49, R50, R170): the environment's turns have no guard. -/
theorem environmentTurnRunsItsStep : Obligations.EnvironmentTurnRunsItsStep :=
  fun _ _ => ⟨fun _ sched => step_of_sched sched, fun _ sched => step_of_sched sched, fun sched => step_of_sched sched,
    fun _ sched => step_of_sched sched⟩

/-! ### The flags -/

/-- A state with other STATUS registers and other records (R19, R24). -/
def reflag (f g : BitVec 8) (l m : List Event) (s : State) : State :=
  { s with c2s := { s.c2s with status := f, evt := l }, s2c := { s.s2c with status := g, evt := m } }

/-- A state with the STATUS registers and the records of another. -/
def withFlagsOf (t s : State) : State := reflag t.c2s.status t.s2c.status t.c2s.evt t.s2c.evt s

theorem takeTurn_reflag (f g : BitVec 8) (l m : List Event) (s : State) :
    takeTurn (reflag f g l m s) = ((takeTurn s).1, reflag f g l m (takeTurn s).2) := by
  cases sched : s.sched with
  | nil => simp only [takeTurn, reflag, sched]
  | cons x r => simp only [takeTurn, reflag, sched]

theorem withFlagsOf_resetBlock (openOk : Bool) (f g : BitVec 8) (l m : List Event) (u : State) :
    withFlagsOf (resetBlock openOk u) (resetBlock openOk (reflag f g l m u)) = resetBlock openOk u := by
  cases openOk <;> rfl

/-- R28: no move's guard reads the flags, and no move writes anything but flags from them. -/
theorem moves_reflag {x : Turn} {u t : State} (mv : Moves x u t) (f g : BitVec 8) (l m : List Event) :
    ∃ t', Moves x (reflag f g l m u) t' ∧ withFlagsOf t t' = t := by
  cases mv with
  | c2sIdle k u waits empty => exact ⟨_, .c2sIdle k _ waits empty, rfl⟩
  | c2sHalted k u halted => exact ⟨_, .c2sHalted k _ halted, rfl⟩
  | recv k u F rest waits queue => exact ⟨_, .recv k _ F rest waits queue, rfl⟩
  | rderr k u rest waits queue => exact ⟨_, .rderr k _ rest waits queue, rfl⟩
  | proc k u proc => exact ⟨_, .proc k _ proc, rfl⟩
  | poll w u waits few => exact ⟨_, .poll w _ waits few, rfl⟩
  | capture w u waits enough => exact ⟨_, .capture w _ waits enough, rfl⟩
  | fwdOk u proc agree => exact ⟨_, .fwdOk _ proc agree, rfl⟩
  | fwdFail u proc agree => exact ⟨_, .fwdFail _ proc agree, rfl⟩
  | drop w u proc differ => exact ⟨_, .drop w _ proc differ, rfl⟩
  | s2cHalted w u halted => exact ⟨_, .s2cHalted w _ halted, rfl⟩
  | srx b u room => exact ⟨_, .srx b _ room, rfl⟩
  | srxLost b u full => exact ⟨_, .srxLost b _ full, rfl⟩
  | crx F u room => exact ⟨_, .crx F _ room, rfl⟩
  | crxLost F u full => exact ⟨_, .crxLost F _ full, rfl⟩
  | crxErr u room => exact ⟨_, .crxErr _ room, rfl⟩
  | crxErrLost u full => exact ⟨_, .crxErrLost _ full, rfl⟩
  | reset openOk u => exact ⟨_, .reset openOk _, withFlagsOf_resetBlock openOk f g l m u⟩

/-- Settles O44 (R28): the step of the reflagged state makes the reflagged move. -/
theorem flagsNeverInfluence : Obligations.FlagsNeverInfluence := by
  intro s t f g l m h
  obtain ⟨t', mv, same⟩ := moves_reflag (moves_of_step h) f g l m
  refine ⟨t', step_eq_next_iff.mpr ?_, same⟩
  show Moves (takeTurn (reflag f g l m s)).1 (takeTurn (reflag f g l m s)).2 t'
  rwa [takeTurn_reflag]

/-! ### What a move does to each pipeline -/

theorem turnOfC2s_iff {x : Turn} : turnOfC2s x = true ↔ ∃ k, x = .c2s k := by
  cases x <;> simp [turnOfC2s]

theorem turnOfS2c_iff {x : Turn} : turnOfS2c x = true ↔ ∃ w, x = .s2c w := by
  cases x <;> simp [turnOfS2c]

section

variable {x : Turn} {u t : State}

/-- C2S's state register moves along R11's arrows. -/
theorem moves_c2s_st (m : Moves x u t) (noReset : turnOfReset x = false) :
    t.c2s.st = u.c2s.st ∨ (u.c2s.st = .wait ∧ t.c2s.st = .proc) ∨ (u.c2s.st = .proc ∧ t.c2s.st = .wait) := by
  cases m with
  | recv k u F rest waits queue => exact .inr (.inl ⟨waits, rfl⟩)
  | proc k u proc => exact .inr (.inr ⟨proc, rfl⟩)
  | reset => cases noReset
  | _ => exact .inl rfl

/-- S2C's state register moves along R11's arrows. -/
theorem moves_s2c_st (m : Moves x u t) (noReset : turnOfReset x = false) :
    t.s2c.st = u.s2c.st ∨ (u.s2c.st = .wait ∧ t.s2c.st = .proc) ∨ (u.s2c.st = .proc ∧ t.s2c.st = .wait) := by
  cases m with
  | capture w u waits enough => exact .inr (.inl ⟨waits, rfl⟩)
  | fwdOk u proc agree => exact .inr (.inr ⟨proc, rfl⟩)
  | fwdFail u proc agree => exact .inr (.inr ⟨proc, rfl⟩)
  | drop w u proc differ => exact .inr (.inr ⟨proc, rfl⟩)
  | reset => cases noReset
  | _ => exact .inl rfl

/-- In PROC, C2S's turn is C2S.PROC. -/
theorem moves_c2s_of_proc {k : Fin 12} (m : Moves (.c2s k) u t) (proc : u.c2s.st = .proc) :
    t.c2s.st = .wait ∧ t.crxq = u.crxq ∧ t.stx = u.stx ++ (sfFrame u.c2s.canin.data).bytes.take k.val := by
  cases m with
  | c2sIdle _ _ waits => exact nomatch waits.symm.trans proc
  | c2sHalted _ _ halted => exact nomatch halted.symm.trans proc
  | recv _ _ _ _ waits => exact nomatch waits.symm.trans proc
  | rderr _ _ _ waits => exact nomatch waits.symm.trans proc
  | proc => exact ⟨rfl, rfl, rfl⟩

/-- In PROC, S2C's turn is S2C.FWD or S2C.DROP. -/
theorem moves_s2c_of_proc {w : CanWrite} (m : Moves (.s2c w) u t) (proc : u.s2c.st = .proc) :
    t = s2cProcessed u.s2c.ibuf w u := by
  have runs : s2cRuns w u = .next t := turnRuns_of_moves m
  rw [s2cRuns_eq_processed proc] at runs
  exact (Host.Outcome.next.inj runs).symm

/-- A halted C2S takes no step (R103, R171). -/
theorem moves_c2s_of_halt (m : Moves x u t) (noReset : turnOfReset x = false) (halted : u.c2s.st = .halt) :
    t.c2s = u.c2s := by
  cases m with
  | recv _ _ _ _ waits => exact nomatch waits.symm.trans halted
  | rderr _ _ _ waits => exact nomatch waits.symm.trans halted
  | proc _ _ proc => exact nomatch proc.symm.trans halted
  | reset => cases noReset
  | _ => rfl

/-- A halted S2C takes no step (R171). -/
theorem moves_s2c_of_halt (m : Moves x u t) (noReset : turnOfReset x = false) (halted : u.s2c.st = .halt) :
    t.s2c = u.s2c := by
  cases m with
  | capture _ _ waits => exact nomatch waits.symm.trans halted
  | fwdOk _ proc => exact nomatch proc.symm.trans halted
  | fwdFail _ proc => exact nomatch proc.symm.trans halted
  | drop _ _ proc => exact nomatch proc.symm.trans halted
  | reset => cases noReset
  | _ => rfl

/-- The frame of C2S (R10): only its own turns and RESET touch it. -/
theorem moves_c2s_frame (m : Moves x u t) (other : turnOfC2s x = false) (noReset : turnOfReset x = false) :
    t.c2s = u.c2s ∧ t.stx = u.stx ∧
      t.crxq = u.crxq ++ if hasRoom u.par.crxqDepth u.crxq.length then (turnItem x).toList else [] := by
  cases m with
  | c2sIdle | c2sHalted | recv | rderr | proc => cases other
  | reset => cases noReset
  | crx F u room => exact ⟨rfl, rfl, by simp [room, turnItem]⟩
  | crxErr u room => exact ⟨rfl, rfl, by simp [room, turnItem]⟩
  | crxLost F u full => exact ⟨rfl, rfl, by simp [full]⟩
  | crxErrLost u full => exact ⟨rfl, rfl, by simp [full]⟩
  | _ => exact ⟨rfl, rfl, by simp [turnItem]⟩

/-- The frame of S2C (R10): only its own turns and RESET touch it. -/
theorem moves_s2c_frame (m : Moves x u t) (other : turnOfS2c x = false) (noReset : turnOfReset x = false) :
    t.s2c = u.s2c ∧ t.ctx = u.ctx ∧
      t.srxq = u.srxq ++ if hasRoom u.par.rxqDepth u.srxq.length then (turnByte x).toList else [] := by
  cases m with
  | poll | capture | fwdOk | fwdFail | drop | s2cHalted => cases other
  | reset => cases noReset
  | srx b u room => exact ⟨rfl, rfl, by simp [room, turnByte]⟩
  | srxLost b u full => exact ⟨rfl, rfl, by simp [full]⟩
  | _ => exact ⟨rfl, rfl, by simp [turnByte]⟩

end

/-- Settles O40 (R11). -/
theorem stateRegistersMove : Obligations.StateRegistersMove := by
  intro s t h
  have m := moves_of_step h
  rw [← takeTurn_c2s s, ← takeTurn_s2c s]
  refine ⟨fun noReset => ⟨moves_c2s_st m noReset, moves_s2c_st m noReset⟩, fun ofC2s proc => ?_, fun ofS2c proc => ?_,
    fun openOk reset => ?_⟩
  · obtain ⟨k, turn⟩ := turnOfC2s_iff.mp ofC2s
    rw [turn] at m
    exact (moves_c2s_of_proc m proc).1
  · obtain ⟨w, turn⟩ := turnOfS2c_iff.mp ofS2c
    rw [turn] at m
    rw [moves_s2c_of_proc m proc]
    rfl
  · rw [reset] at m
    cases m
    rw [resetBlock_eq]
    cases openOk <;> exact ⟨rfl, rfl⟩

end Sys2Proof.Proofs

/-! Proofs of the family of the whole model: the records and the flags, the invariants every step keeps, and what a step
can change. -/

namespace Sys2Proof.Proofs

open Sys2Proof.Machine

/-! ### Quiescence -/

/-- R27's third column and what R171 writes over it: every buffer and accumulator is zero. -/
theorem quiescent_resetBlock (openOk : Bool) (u : State) : Quiescent (resetBlock openOk u) := by
  cases openOk <;> exact ⟨⟨rfl, rfl, fun _ => rfl⟩, ⟨rfl, rfl, fun _ => rfl⟩⟩

/-- R26: a step that ends in WAIT clears its pipeline's buffers, and one that ends in PROC writes the input buffer alone. -/
theorem moves_quiescent {x : Turn} {u t : State} (m : Moves x u t) (quiet : Quiescent u) : Quiescent t := by
  obtain ⟨c2sQuiet, s2cQuiet⟩ := quiet
  obtain ⟨obuf, c2sAcc, canin⟩ := c2sQuiet
  obtain ⟨canout, s2cAcc, ibuf⟩ := s2cQuiet
  cases m with
  | recv => exact ⟨⟨obuf, c2sAcc, fun waits => absurd rfl waits⟩, ⟨canout, s2cAcc, ibuf⟩⟩
  | proc => exact ⟨⟨rfl, rfl, fun _ => rfl⟩, ⟨canout, s2cAcc, ibuf⟩⟩
  | capture => exact ⟨⟨obuf, c2sAcc, canin⟩, ⟨canout, s2cAcc, fun waits => absurd rfl waits⟩⟩
  | fwdOk => exact ⟨⟨obuf, c2sAcc, canin⟩, ⟨rfl, rfl, fun _ => rfl⟩⟩
  | fwdFail => exact ⟨⟨obuf, c2sAcc, canin⟩, ⟨rfl, rfl, fun _ => rfl⟩⟩
  | drop => exact ⟨⟨obuf, c2sAcc, canin⟩, ⟨canout, rfl, fun _ => rfl⟩⟩
  | reset openOk => exact quiescent_resetBlock openOk u
  | _ => exact ⟨⟨obuf, c2sAcc, canin⟩, ⟨canout, s2cAcc, ibuf⟩⟩

/-- Settles O48 (R26). -/
theorem quiescenceIsKept : Obligations.QuiescenceIsKept := by
  intro s t quiet h
  exact moves_quiescent (moves_of_step h) (by simpa only [Quiescent, quietC2s, quietS2c, takeTurn_c2s, takeTurn_s2c] using quiet)

/-! ### The records -/

/-- What one move without RESET does to a pipeline's STATUS and record: nothing, or one event it can raise, which is not
that of a failed start (R140, R141, R146). -/
def Recorded (P : Pipe) (status : BitVec 8) (evt : List Event) (status' : BitVec 8) (evt' : List Event) : Prop :=
  (status' = status ∧ evt' = evt) ∨
  ∃ e, raisable P e = true ∧ e ≠ .transportOpenError ∧ status' = setFlag P e status ∧ evt' = evt ++ [e]

/-- C2S's two errors; a short write accepts at most 10 bytes. -/
theorem moves_c2s_recorded {x : Turn} {u t : State} (m : Moves x u t) (noReset : turnOfReset x = false) :
    Recorded .c2s u.c2s.status u.c2s.evt t.c2s.status t.c2s.evt := by
  cases m with
  | rderr => exact .inr ⟨.transportReadError, rfl, nofun, rfl, rfl⟩
  | proc k =>
    by_cases whole : k.val = 11
    · exact .inl ⟨if_pos whole, if_pos whole⟩
    · have short : raisable .c2s (.transportWriteError (some k)) = true := decide_eq_true (by omega)
      exact .inr ⟨_, short, nofun, if_neg whole, if_neg whole⟩
  | reset => cases noReset
  | _ => exact .inl ⟨rfl, rfl⟩

/-- S2C's three events; a surplus is at least one byte, and a mismatch is of two different bytes. -/
theorem moves_s2c_recorded {x : Turn} {u t : State} (m : Moves x u t) (noReset : turnOfReset x = false) :
    Recorded .s2c u.s2c.status u.s2c.evt t.s2c.status t.s2c.evt := by
  cases m with
  | capture =>
    by_cases surplus : 11 < u.srxq.length
    · have counted : raisable .s2c (.framingAmbiguity (u.srxq.length - 11)) = true := decide_eq_true (by omega)
      exact .inr ⟨_, counted, nofun, if_pos surplus, if_pos surplus⟩
    · exact .inl ⟨if_neg surplus, if_neg surplus⟩
  | fwdFail => exact .inr ⟨.transportWriteError none, rfl, nofun, rfl, rfl⟩
  | drop w u proc differ =>
    have unequal : raisable .s2c (.checksumMismatch (cksum8 u.s2c.ibuf.pay) u.s2c.ibuf.ck) = true := decide_eq_true differ
    exact .inr ⟨_, unequal, nofun, rfl, rfl⟩
  | reset => cases noReset
  | _ => exact .inl ⟨rfl, rfl⟩

section

variable {P : Pipe} {status status' : BitVec 8} {evt evt' : List Event}

theorem Recorded.isPrefix (r : Recorded P status evt status' evt') : evt <+: evt' := by
  obtain ⟨-, rfl⟩ | ⟨e, -, -, -, rfl⟩ := r
  · exact List.prefix_refl _
  · exact List.prefix_append _ _

/-- A raisable event's flag is one of the settable bits (R19). -/
theorem settable_of_raisable {e : Event} (legal : raisable P e = true) : (settable P).getLsbD (eventCode e) = true :=
  match P, e, legal with
  | .c2s, .transportOpenError, _ => (by decide : (settable .c2s).getLsbD 1 = true)
  | .c2s, .transportReadError, _ => (by decide : (settable .c2s).getLsbD 2 = true)
  | .c2s, .transportWriteError _, _ => (by decide : (settable .c2s).getLsbD 3 = true)
  | .s2c, .transportOpenError, _ => (by decide : (settable .s2c).getLsbD 1 = true)
  | .s2c, .transportWriteError _, _ => (by decide : (settable .s2c).getLsbD 3 = true)
  | .s2c, .checksumMismatch _ _, _ => (by decide : (settable .s2c).getLsbD 4 = true)
  | .s2c, .framingAmbiguity _, _ => (by decide : (settable .s2c).getLsbD 5 = true)

/-- R146: the flag set is the code of the event appended. -/
theorem flagsMatch_raise {e : Event} (legal : raisable P e = true) (matched : flagsMatch status evt) :
    flagsMatch (setFlag P e status) (evt ++ [e]) := by
  intro n below
  rw [getLsbD_setFlag P e status n below, matched n below, List.any_append, List.any_cons, List.any_nil, Bool.or_false]
  by_cases code : n = eventCode e
  · rw [code, settable_of_raisable legal]
    simp
  · simp [code, Ne.symm code]

theorem Recorded.flagsMatch (r : Recorded P status evt status' evt') (matched : flagsMatch status evt) :
    flagsMatch status' evt' := by
  obtain ⟨rfl, rfl⟩ | ⟨e, legal, -, rfl, rfl⟩ := r
  · exact matched
  · exact flagsMatch_raise legal matched

theorem Recorded.legal (r : Recorded P status evt status' evt') (legal : ∀ e ∈ evt, raisable P e = true) :
    ∀ e ∈ evt', raisable P e = true := by
  obtain ⟨-, rfl⟩ | ⟨e, new, -, -, rfl⟩ := r
  · exact legal
  · exact List.forall_mem_append.mpr ⟨legal, List.forall_mem_singleton.mpr new⟩

theorem Recorded.noOpenError (r : Recorded P status evt status' evt') (none : Event.transportOpenError ∉ evt) :
    Event.transportOpenError ∉ evt' := by
  obtain ⟨-, rfl⟩ | ⟨e, -, other, -, rfl⟩ := r
  · exact none
  · simp [none, Ne.symm other]

end

/-! ### The other invariants -/

theorem flagsMatch_nil : flagsMatch 0 [] := fun _ _ => BitVec.getLsbD_zero

theorem flagsMatch_openError : flagsMatch 0x02 [.transportOpenError] := by
  unfold flagsMatch
  decide

theorem statusMatchesRecord_resetBlock (openOk : Bool) (u : State) : StatusMatchesRecord (resetBlock openOk u) := by
  rw [resetBlock_eq]
  cases openOk with
  | true => exact ⟨flagsMatch_nil, flagsMatch_nil⟩
  | false => exact ⟨flagsMatch_openError, flagsMatch_openError⟩

theorem recordsLegal_resetBlock (openOk : Bool) (u : State) : RecordsLegal (resetBlock openOk u) := by
  rw [resetBlock_eq]
  cases openOk with
  | true => exact ⟨nofun, nofun⟩
  | false => exact ⟨List.forall_mem_singleton.mpr rfl, List.forall_mem_singleton.mpr rfl⟩

theorem haltIsOpenError_resetBlock (openOk : Bool) (u : State) : HaltIsOpenError (resetBlock openOk u) := by
  rw [resetBlock_eq]
  cases openOk with
  | true => exact ⟨⟨nofun, nofun⟩, nofun, fun _ => ⟨List.not_mem_nil, List.not_mem_nil⟩⟩
  | false => exact ⟨⟨fun _ => rfl, fun _ => rfl⟩, fun _ => ⟨rfl, rfl⟩, fun runs => absurd rfl runs⟩

/-- A turn other than RESET is told apart from the resets. -/
theorem eq_reset_or (x : Turn) : (∃ openOk, x = .reset openOk) ∨ turnOfReset x = false := by
  cases x <;> simp [turnOfReset]

theorem eq_resetBlock_of_moves {openOk : Bool} {u t : State} (m : Moves (.reset openOk) u t) : t = resetBlock openOk u := by
  cases m
  rfl

/-- An invariant of a state without its turns is kept by a step if RESET reaches it and every other move keeps it. -/
theorem kept_of_moves {Q : State → Prop} {s t : State} (h : step s = .next t)
    (reset : ∀ openOk u, Q (resetBlock openOk u))
    (moved : ∀ x u, Moves x u t → turnOfReset x = false → Q u → Q t) (spent : Q (takeTurn s).2) : Q t := by
  have m := moves_of_step h
  obtain ⟨openOk, turn⟩ | noReset := eq_reset_or (takeTurn s).1
  · rw [turn] at m
    rw [eq_resetBlock_of_moves m]
    exact reset openOk _
  · exact moved _ _ m noReset spent

/-- Settles O49 (R19, R24): a move that raises nothing leaves flag and record, and one that raises sets the flag of the
event it appends. -/
theorem statusMatchesRecordIsKept : Obligations.StatusMatchesRecordIsKept := by
  intro s t matched h
  refine kept_of_moves h statusMatchesRecord_resetBlock (fun x u m noReset matched => ?_)
    (by simpa only [StatusMatchesRecord, takeTurn_c2s, takeTurn_s2c] using matched)
  exact ⟨(moves_c2s_recorded m noReset).flagsMatch matched.1, (moves_s2c_recorded m noReset).flagsMatch matched.2⟩

/-- Settles O50 (R140). -/
theorem recordsLegalIsKept : Obligations.RecordsLegalIsKept := by
  intro s t legal h
  refine kept_of_moves h recordsLegal_resetBlock (fun x u m noReset legal => ?_)
    (by simpa only [RecordsLegal, takeTurn_c2s, takeTurn_s2c] using legal)
  exact ⟨(moves_c2s_recorded m noReset).legal legal.1, (moves_s2c_recorded m noReset).legal legal.2⟩

theorem moves_c2s_halt_iff {x : Turn} {u t : State} (m : Moves x u t) (noReset : turnOfReset x = false) :
    t.c2s.st = .halt ↔ u.c2s.st = .halt := by
  obtain same | ⟨waits, proc⟩ | ⟨proc, waits⟩ := moves_c2s_st m noReset
  · rw [same]
  · simp [waits, proc]
  · simp [waits, proc]

theorem moves_s2c_halt_iff {x : Turn} {u t : State} (m : Moves x u t) (noReset : turnOfReset x = false) :
    t.s2c.st = .halt ↔ u.s2c.st = .halt := by
  obtain same | ⟨waits, proc⟩ | ⟨proc, waits⟩ := moves_s2c_st m noReset
  · rw [same]
  · simp [waits, proc]
  · simp [waits, proc]

theorem moves_haltIsOpenError {x : Turn} {u t : State} (m : Moves x u t) (noReset : turnOfReset x = false)
    (inv : HaltIsOpenError u) : HaltIsOpenError t := by
  obtain ⟨both, halted, running⟩ := inv
  have c2sHalt := moves_c2s_halt_iff m noReset
  refine ⟨by rw [c2sHalt, moves_s2c_halt_iff m noReset, both], fun halt => ?_, fun runs => ?_⟩
  · have c2sHalted := c2sHalt.mp halt
    rw [moves_c2s_of_halt m noReset c2sHalted, moves_s2c_of_halt m noReset (both.mp c2sHalted)]
    exact halted c2sHalted
  · obtain ⟨c2sNone, s2cNone⟩ := running (mt c2sHalt.mpr runs)
    exact ⟨(moves_c2s_recorded m noReset).noOpenError c2sNone, (moves_s2c_recorded m noReset).noOpenError s2cNone⟩

/-- Settles O53 (R141, R149): no move but RESET enters or leaves HALT or records TransportOpenError. -/
theorem haltIsOpenErrorIsKept : Obligations.HaltIsOpenErrorIsKept := by
  intro s t inv h
  exact kept_of_moves h haltIsOpenError_resetBlock (fun x u => moves_haltIsOpenError)
    (by simpa only [HaltIsOpenError, takeTurn_c2s, takeTurn_s2c] using inv)

/-- CTX grows by at most one frame in a move, and that frame is the one R76 gives. -/
theorem moves_ctx {x : Turn} {u t : State} (m : Moves x u t) (noReset : turnOfReset x = false) :
    t.ctx = u.ctx ∨ ∃ d, t.ctx = u.ctx ++ [cfFrame u.par.canTxId d] := by
  cases m with
  | fwdOk => exact .inr ⟨_, rfl⟩
  | reset => cases noReset
  | _ => exact .inl rfl

/-- STX grows by at most the 11 bytes of a frame in a move. -/
theorem moves_stx {x : Turn} {u t : State} (m : Moves x u t) (noReset : turnOfReset x = false) :
    ∃ q : List Byte, q.length ≤ 11 ∧ t.stx = u.stx ++ q := by
  cases m with
  | proc k => exact ⟨_, List.length_take_le' _ _, rfl⟩
  | reset => cases noReset
  | _ => exact ⟨[], Nat.zero_le _, (List.append_nil _).symm⟩

/-- Settles O51 (R76). -/
theorem ctxFramesOwnIsKept : Obligations.CtxFramesOwnIsKept := by
  intro s t own h
  refine kept_of_moves h (fun openOk u => ?_) (fun x u m noReset own => ?_)
    (by simpa only [CtxFramesOwn, takeTurn_ctx, takeTurn_par] using own)
  · simp [CtxFramesOwn, resetBlock_eq]
  · rw [CtxFramesOwn, moves_par m]
    obtain same | ⟨d, sent⟩ := moves_ctx m noReset
    · rw [same]
      exact own
    · rw [sent]
      exact List.forall_mem_append.mpr ⟨own, List.forall_mem_singleton.mpr ⟨rfl, rfl⟩⟩

theorem withinDepth_zero (depth : Option Nat) : withinDepth depth 0 := fun _ _ => Nat.zero_le _

theorem withinDepth_of_le {depth : Option Nat} {m n : Nat} (within : withinDepth depth n) (le : m ≤ n) :
    withinDepth depth m := fun d hd => le.trans (within d hd)

theorem withinDepth_append_of_room {α : Type} {depth : Option Nat} {q : List α} (b : α)
    (room : hasRoom depth q.length = true) : withinDepth depth (q ++ [b]).length := by
  rw [List.length_append]
  exact (hasRoom_iff depth q.length).mp room

/-- Every move but a push with room shortens the receive queues or leaves them. -/
theorem moves_queuesWithinDepth {x : Turn} {u t : State} (m : Moves x u t) (noReset : turnOfReset x = false)
    (within : QueuesWithinDepth u) : QueuesWithinDepth t := by
  obtain ⟨srx, crx⟩ := within
  cases m with
  | recv k u F rest waits queue => exact ⟨srx, withinDepth_of_le crx (by simp [queue])⟩
  | rderr k u rest waits queue => exact ⟨srx, withinDepth_of_le crx (by simp [queue])⟩
  | capture => exact ⟨withinDepth_zero _, crx⟩
  | srx b u room => exact ⟨withinDepth_append_of_room b room, crx⟩
  | crx F u room => exact ⟨srx, withinDepth_append_of_room _ room⟩
  | crxErr u room => exact ⟨srx, withinDepth_append_of_room _ room⟩
  | reset => cases noReset
  | _ => exact ⟨srx, crx⟩

/-- Settles O52 (R49, R50): a byte or an item is appended only below the depth. -/
theorem queuesWithinDepthIsKept : Obligations.QueuesWithinDepthIsKept := by
  intro s t within h
  refine kept_of_moves h (fun openOk u => ?_) (fun x u => moves_queuesWithinDepth)
    (by simpa only [QueuesWithinDepth, takeTurn_srxq, takeTurn_crxq, takeTurn_par] using within)
  rw [resetBlock_eq]
  exact ⟨withinDepth_zero _, withinDepth_zero _⟩

/-- Settles O46 (R23, R24). -/
theorem recordsOnlyGrow : Obligations.RecordsOnlyGrow := by
  intro s t noReset h
  have m := moves_of_step h
  obtain ⟨q, short, stx⟩ := moves_stx m noReset
  have ctx := moves_ctx m noReset
  have c2sEvt := (moves_c2s_recorded m noReset).isPrefix
  have s2cEvt := (moves_s2c_recorded m noReset).isPrefix
  simp only [takeTurn_stx, takeTurn_ctx, takeTurn_c2s, takeTurn_s2c] at stx ctx c2sEvt s2cEvt
  refine ⟨⟨q, stx.symm⟩, ?_, c2sEvt, s2cEvt, by rw [stx, List.length_append]; omega, ?_⟩
  · obtain same | ⟨d, sent⟩ := ctx
    · rw [same]
    · exact ⟨_, sent.symm⟩
  · obtain same | ⟨d, sent⟩ := ctx
    · rw [same]
      exact Nat.le_succ _
    · rw [sent, List.length_append]
      exact Nat.le_refl _

/-- A waiting S2C with a fragment in SRXQ polls at its turn (R120), so only a push or RESET changes anything there. -/
theorem moves_of_fragment {x : Turn} {u t : State} (m : Moves x u t) (waits : u.s2c.st = .wait)
    (few : u.srxq.length < 11) (noByte : turnByte x = none) (noReset : turnOfReset x = false) :
    t.srxq = u.srxq ∧ t.s2c = u.s2c := by
  cases m with
  | capture _ _ _ enough => omega
  | fwdOk _ proc => exact nomatch waits.symm.trans proc
  | fwdFail _ proc => exact nomatch waits.symm.trans proc
  | drop _ _ proc => exact nomatch waits.symm.trans proc
  | srx => cases noByte
  | reset => cases noReset
  | _ => exact ⟨rfl, rfl⟩

/-- Settles O47 (R120, R176). -/
theorem fragmentIsNeverDiscarded : Obligations.FragmentIsNeverDiscarded := by
  intro s t waits few noByte noReset h
  rw [← takeTurn_s2c s] at waits ⊢
  rw [← takeTurn_srxq s] at few ⊢
  exact moves_of_fragment (moves_of_step h) waits few noByte noReset

/-- Settles O37 (R27): the third column, by computation. -/
theorem resetStateValues : Obligations.ResetStateValues :=
  ⟨rfl, rfl, rfl, rfl, rfl, rfl, rfl⟩

/-- Settles O54: the state after reset is what RESET with OPEN_OK true makes of it, so it has what every RESET reaches. -/
theorem resetIsSafe : Obligations.ResetIsSafe :=
  ⟨quiescent_resetBlock true State.reset, statusMatchesRecord_resetBlock true State.reset,
    recordsLegal_resetBlock true State.reset, nofun, ⟨withinDepth_zero _, withinDepth_zero _⟩,
    haltIsOpenError_resetBlock true State.reset⟩

/-! ### After an error -/

theorem window_bytes_eq_take {q : List Byte} (enough : 11 ≤ q.length) : (SerialFrame.window q).bytes = q.take 11 := by
  conv_rhs => rw [← SerialFrame.window_bytes q enough]
  exact (List.take_left' rfl).symm

theorem not_append_singleton_eq_self {α : Type} {l : List α} {a : α} : ¬ l = l ++ [a] := by
  simp

/-- R150 for C2S: its two error steps return it to WAIT with its buffers cleared; C2S.RDERR found them so (R26). -/
theorem moves_c2s_of_error {x : Turn} {u t : State} {e : Event} (m : Moves x u t) (quiet : quietC2s u)
    (noReset : turnOfReset x = false) (raised : t.c2s.evt = u.c2s.evt ++ [e]) :
    t.c2s.st = .wait ∧ t.c2s.canin = CanFrame.zero ∧ t.c2s.obuf = SerialFrame.zero ∧ t.c2s.acc = 0 ∧ t.s2c = u.s2c := by
  obtain ⟨obuf, acc, canin⟩ := quiet
  cases m with
  | rderr k u rest waits queue => exact ⟨waits, canin (by simp [waits]), obuf, acc, rfl⟩
  | proc => exact ⟨rfl, rfl, rfl, rfl, rfl⟩
  | reset => cases noReset
  | _ => exact absurd raised not_append_singleton_eq_self

/-- R150 for S2C: the processing step returns it to WAIT with its buffers cleared; S2C.DROP leaves CANOUT, which was zero
(R26). The one event of S2C.CAPTURE is FramingAmbiguity. -/
theorem moves_s2c_of_error {x : Turn} {u t : State} {e : Event} (m : Moves x u t) (quiet : quietS2c u)
    (noReset : turnOfReset x = false) (raised : t.s2c.evt = u.s2c.evt ++ [e]) (other : eventCode e ≠ 5) :
    t.s2c.st = .wait ∧ t.s2c.ibuf = SerialFrame.zero ∧ t.s2c.canout = CanFrame.zero ∧ t.s2c.acc = 0 ∧ t.c2s = u.c2s := by
  obtain ⟨canout, -, -⟩ := quiet
  cases m with
  | capture =>
    by_cases surplus : 11 < u.srxq.length
    · obtain ⟨⟩ : [Event.framingAmbiguity _] = [e] := List.append_cancel_left ((if_pos surplus).symm.trans raised)
      exact absurd rfl other
    · exact absurd ((if_neg surplus).symm.trans raised) not_append_singleton_eq_self
  | fwdOk => exact absurd raised not_append_singleton_eq_self
  | fwdFail => exact ⟨rfl, rfl, rfl, rfl, rfl⟩
  | drop => exact ⟨rfl, rfl, canout, rfl, rfl⟩
  | reset => cases noReset
  | _ => exact absurd raised not_append_singleton_eq_self

/-- R147 for FramingAmbiguity: the capture that raised it went on to PROC with the window. -/
theorem moves_s2c_of_framing {x : Turn} {u t : State} {e : Event} (m : Moves x u t) (noReset : turnOfReset x = false)
    (raised : t.s2c.evt = u.s2c.evt ++ [e]) (framing : eventCode e = 5) :
    t.s2c.st = .proc ∧ t.s2c.ibuf.bytes = u.srxq.take 11 ∧ e = .framingAmbiguity (u.srxq.length - 11) ∧ t.c2s = u.c2s := by
  cases m with
  | capture w u waits enough =>
    by_cases surplus : 11 < u.srxq.length
    · obtain ⟨⟩ : [Event.framingAmbiguity _] = [e] := List.append_cancel_left ((if_pos surplus).symm.trans raised)
      exact ⟨rfl, window_bytes_eq_take enough, rfl, rfl⟩
    · exact absurd ((if_neg surplus).symm.trans raised) not_append_singleton_eq_self
  | fwdFail =>
    cases List.append_cancel_left raised
    cases framing
  | drop =>
    cases List.append_cancel_left raised
    cases framing
  | reset => cases noReset
  | _ => exact absurd raised not_append_singleton_eq_self

/-- Settles O39 (R147, R150). -/
theorem stateAfterAnError : Obligations.StateAfterAnError := by
  intro s t e quiet noReset h
  have m := moves_of_step h
  rw [Quiescent, quietC2s, quietS2c, ← takeTurn_c2s s, ← takeTurn_s2c s] at quiet
  rw [← takeTurn_c2s s, ← takeTurn_s2c s, ← takeTurn_srxq s]
  exact ⟨moves_c2s_of_error m quiet.1 noReset, moves_s2c_of_error m quiet.2 noReset, moves_s2c_of_framing m noReset⟩

end Sys2Proof.Proofs

/-! Proofs of the family of the whole model: the instructions. When each is enabled and what it makes of the state, said
once; from that its faults, its pipeline's part of the state, and the phases SF.TX and CF.TX. -/

namespace Sys2Proof.Proofs

open Sys2Proof.Machine

/-! ### Guards and effects -/

/-- 'Enabled when' of an instruction; the guards of SF.TX and CF.TX are the model's (log 8). -/
def enabled : Instr → State → Prop
  | .s2cFwd W _, s => s.s2c.st = .proc ∧ s.s2c.ibuf = W ∧ cksum8 W.pay = W.ck
  | .s2cDrop W, s => s.s2c.st = .proc ∧ s.s2c.ibuf = W ∧ cksum8 W.pay ≠ W.ck
  | .c2sRecv F, s => s.c2s.st = .wait ∧ crxHead s = some (.frame F)
  | .c2sRderr, s => s.c2s.st = .wait ∧ crxHead s = some .err
  | .sfTx p _, s => s.c2s.st = .proc ∧ s.c2s.canin.data = p
  | .cfTx id d _, s =>
    s.s2c.st = .proc ∧ cksum8 s.s2c.ibuf.pay = s.s2c.ibuf.ck ∧ s.par.canTxId = id ∧ s.s2c.ibuf.pay = d
  | .c2sProc _, s => s.c2s.st = .proc
  | .s2cPoll, s => s.s2c.st = .wait ∧ srxCount s < 11
  | .s2cCapture, s => s.s2c.st = .wait ∧ 11 ≤ srxCount s
  | .ckSum8 _, _ | .ckClr _, _ | .ckAdd _ _, _ | .envSrxPush _, _ | .envCrxPush _, _ | .envCrxPusherr, _ | .reset _, _ => True

/-- What an enabled instruction makes of a state. -/
def effect : Instr → State → State
  | .s2cFwd _ w, s => s2cClear (s2cWrite w (s2cBuild (s2cChecksum s)))
  | .s2cDrop W, s => s2cDropClear (raise .s2c (.checksumMismatch (acc .s2c (s2cChecksum s)) W.ck) (s2cChecksum s))
  | .c2sRecv F, s => { crxPop s with c2s := { s.c2s with canin := F, st := .proc } }
  | .c2sRderr, s => raise .c2s .transportReadError (crxPop s)
  | .sfTx _ k, s => c2sTransmit k s
  | .cfTx _ _ w, s => s2cWrite w (s2cBuild s)
  | .c2sProc k, s => c2sClear (c2sTransmit k s)
  | .s2cPoll, s | .ckSum8 _, s => s
  | .s2cCapture, s => s2cTake s
  | .ckClr P, s => accClear P s
  | .ckAdd P b, s => accAdd P b s
  | .envSrxPush b, s => srxPush b s
  | .envCrxPush F, s => crxPush (.frame F) s
  | .envCrxPusherr, s => crxPush .err s
  | .reset openOk, s => resetBlock openOk s

theorem exec_of_enabled {i : Instr} {s : State} (h : enabled i s) : exec i s = .next (effect i s) := by
  cases i with
  | ckSum8 | ckClr | ckAdd | envSrxPush | envCrxPush | envCrxPusherr | reset => rfl
  | _ => exact if_pos h

theorem exec_of_not_enabled {i : Instr} {s : State} (h : ¬ enabled i s) : exec i s = .fault .notEnabled := by
  cases i with
  | ckSum8 | ckClr | ckAdd | envSrxPush | envCrxPush | envCrxPusherr | reset => exact absurd trivial h
  | _ => exact if_neg h

theorem exec_eq_next_iff {i : Instr} {s t : State} : exec i s = .next t ↔ enabled i s ∧ effect i s = t := by
  by_cases h : enabled i s
  · simp [exec_of_enabled h, h]
  · simp [exec_of_not_enabled h, h]

theorem exec_eq_fault_iff {i : Instr} {s : State} {f : Fault} : exec i s = .fault f ↔ f = .notEnabled ∧ ¬ enabled i s := by
  by_cases h : enabled i s
  · simp [exec_of_enabled h, h]
  · simp [exec_of_not_enabled h, h]

theorem crxHead_eq_some_iff {s : State} {x : Item} : crxHead s = some x ↔ ∃ rest, s.crxq = x :: rest :=
  List.head?_eq_some_iff

/-- Settles O60 (R11, R54): the nine guards of `enabled`, row by row. -/
theorem onlyDisabledStepsFault : Obligations.OnlyDisabledStepsFault := by
  intro i s f
  rw [exec_eq_fault_iff]
  refine and_congr_right fun _ => ?_
  cases i with
  | s2cFwd => simp [enabled]
  | s2cDrop => simp [enabled]
  | c2sRecv => simp [enabled, crxHead_eq_some_iff]
  | c2sRderr => simp [enabled, crxHead_eq_some_iff]
  | sfTx => simp [enabled]
  | cfTx => simp [enabled]
  | c2sProc => simp [enabled]
  | s2cPoll => simp [enabled, srxCount]
  | s2cCapture => simp [enabled, srxCount]
  | ckSum8 | ckClr | ckAdd | envSrxPush | envCrxPush | envCrxPusherr | reset => simp [enabled]

/-! ### The pipelines -/

/-- C2S and its two channels from one state, the rest from another. -/
def withC2sOf (a s : State) : State := { s with c2s := a.c2s, crxq := a.crxq, stx := a.stx }

/-- S2C and its two channels from one state, the rest from another. -/
def withS2cOf (b s : State) : State := { s with s2c := b.s2c, srxq := b.srxq, ctx := b.ctx }

section

variable {i : Instr} {s s' : State}

/-- R10: an instruction of C2S changes C2S's part of the state, as a function of that part. -/
theorem effect_c2s_local (own : ofC2s i = true) (c2s : s'.c2s = s.c2s) (crxq : s'.crxq = s.crxq) (stx : s'.stx = s.stx) :
    effect i s' = withC2sOf (effect i s) s' := by
  cases i with
  | c2sRecv F => simp [effect, withC2sOf, crxPop, c2s, crxq, stx]
  | c2sRderr => simp [effect, withC2sOf, raise, crxPop, c2s, crxq, stx]
  | c2sProc k => simp [effect, withC2sOf, c2sClear_c2sTransmit, c2s, crxq, stx]
  | sfTx p k => simp [effect, withC2sOf, c2sTransmit_eq, c2sWrite_eq, c2s, crxq, stx]
  | ckClr P =>
    cases P with
    | c2s => simp [effect, withC2sOf, accClear, setAcc, c2s, crxq, stx]
    | s2c => cases own
  | ckAdd P b =>
    cases P with
    | c2s => simp [effect, withC2sOf, accAdd, setAcc, acc, c2s, crxq, stx]
    | s2c => cases own
  | _ => cases own

/-- R10: an instruction of S2C changes S2C's part of the state, as a function of that part and the parameters. -/
theorem effect_s2c_local (own : ofS2c i = true) (s2c : s'.s2c = s.s2c) (srxq : s'.srxq = s.srxq) (ctx : s'.ctx = s.ctx)
    (par : s'.par = s.par) : effect i s' = withS2cOf (effect i s) s' := by
  cases i with
  | s2cFwd W w =>
    cases w <;>
      simp [effect, withS2cOf, s2cClear, s2cWrite_eq, s2cBuild, s2cChecksum, accRun_eq, setAcc, raise, s2c, srxq, ctx, par]
  | s2cDrop W => simp [effect, withS2cOf, s2cDropClear, s2cChecksum, accRun_eq, setAcc, acc, raise, s2c, srxq, ctx]
  | cfTx id d w => cases w <;> simp [effect, withS2cOf, s2cWrite_eq, s2cBuild, raise, s2c, srxq, ctx, par]
  | s2cPoll => simp [effect, withS2cOf, ← s2c, ← srxq, ← ctx]
  | s2cCapture => simp [effect, withS2cOf, s2cTake_eq, s2c, srxq, ctx]
  | ckClr P =>
    cases P with
    | c2s => cases own
    | s2c => simp [effect, withS2cOf, accClear, setAcc, s2c, srxq, ctx]
  | ckAdd P b =>
    cases P with
    | c2s => cases own
    | s2c => simp [effect, withS2cOf, accAdd, setAcc, acc, s2c, srxq, ctx]
  | _ => cases own

/-- The guard of an instruction of C2S reads C2S and the head of CRXQ. -/
theorem enabled_c2s_local (own : ofC2s i = true) (c2s : s'.c2s = s.c2s) (crxq : s'.crxq = s.crxq) (h : enabled i s) :
    enabled i s' := by
  cases i with
  | c2sRecv | c2sRderr | c2sProc | sfTx => simpa only [enabled, crxHead, c2s, crxq] using h
  | ckClr | ckAdd => trivial
  | _ => cases own

/-- The guard of an instruction of S2C reads S2C, the length of SRXQ and CAN_TX_ID. -/
theorem enabled_s2c_local (own : ofS2c i = true) (s2c : s'.s2c = s.s2c) (srxq : s'.srxq = s.srxq) (par : s'.par = s.par)
    (h : enabled i s) : enabled i s' := by
  cases i with
  | s2cFwd | s2cDrop | cfTx | s2cPoll | s2cCapture => simpa only [enabled, srxCount, s2c, srxq, par] using h
  | ckClr | ckAdd => trivial
  | _ => cases own

theorem exec_c2s_local {a : State} (own : ofC2s i = true) (h : exec i s = .next a) (c2s : s'.c2s = s.c2s)
    (crxq : s'.crxq = s.crxq) (stx : s'.stx = s.stx) : exec i s' = .next (withC2sOf a s') := by
  obtain ⟨guard, rfl⟩ := exec_eq_next_iff.mp h
  exact exec_eq_next_iff.mpr ⟨enabled_c2s_local own c2s crxq guard, effect_c2s_local own c2s crxq stx⟩

theorem exec_s2c_local {b : State} (own : ofS2c i = true) (h : exec i s = .next b) (s2c : s'.s2c = s.s2c)
    (srxq : s'.srxq = s.srxq) (ctx : s'.ctx = s.ctx) (par : s'.par = s.par) : exec i s' = .next (withS2cOf b s') := by
  obtain ⟨guard, rfl⟩ := exec_eq_next_iff.mp h
  exact exec_eq_next_iff.mpr ⟨enabled_s2c_local own s2c srxq par guard, effect_s2c_local own s2c srxq ctx par⟩

theorem eq_withC2sOf_of_exec {a : State} (own : ofC2s i = true) (h : exec i s = .next a) : a = withC2sOf a s :=
  Host.Outcome.next.inj (h.symm.trans (exec_c2s_local own h rfl rfl rfl))

theorem eq_withS2cOf_of_exec {b : State} (own : ofS2c i = true) (h : exec i s = .next b) : b = withS2cOf b s :=
  Host.Outcome.next.inj (h.symm.trans (exec_s2c_local own h rfl rfl rfl rfl))

end

/-- Settles O41 (R10): outside its pipeline's part, the state after is the state before. -/
theorem pipelinesTouchOnlyTheirOwn : Obligations.PipelinesTouchOnlyTheirOwn := by
  intro i s t h
  refine ⟨fun own => ?_, fun own => ?_⟩
  · rw [eq_withC2sOf_of_exec own h]
    exact ⟨rfl, rfl, rfl, rfl, rfl, rfl⟩
  · rw [eq_withS2cOf_of_exec own h]
    exact ⟨rfl, rfl, rfl, rfl, rfl, rfl⟩

/-- Settles O42 (R10): from another state with the same part, the same part comes out. -/
theorem pipelinesReadOnlyTheirOwn : Obligations.PipelinesReadOnlyTheirOwn := by
  intro i s s' t h
  refine ⟨fun own c2s crxq stx => ?_, fun own s2c srxq ctx par => ?_⟩
  · exact ⟨_, exec_c2s_local own h c2s crxq stx, rfl, rfl, rfl⟩
  · exact ⟨_, exec_s2c_local own h s2c srxq ctx par, rfl, rfl, rfl⟩

/-- Settles O43 (R56): either order ends with C2S's part as its instruction left it, S2C's part as its own left it, and the
rest as it was. -/
theorem pipelineStepsCommute : Obligations.PipelineStepsCommute := by
  intro i j s a b ofC2s ofS2c ha hb
  have fromA := exec_s2c_local (s' := withC2sOf a s) ofS2c hb rfl rfl rfl rfl
  have fromB := exec_c2s_local (s' := withS2cOf b s) ofC2s ha rfl rfl rfl
  exact ⟨_, (congrArg (exec j) (eq_withC2sOf_of_exec ofC2s ha)).trans fromA,
    (congrArg (exec i) (eq_withS2cOf_of_exec ofS2c hb)).trans fromB⟩

theorem srxPush_par (b : Byte) (s : State) : (srxPush b s).par = s.par := by
  obtain ⟨-, appended⟩ | ⟨-, lost⟩ := srxPush_cases b s
  · rw [appended]
  · rw [lost]

theorem crxPush_par (x : Item) (s : State) : (crxPush x s).par = s.par := by
  obtain ⟨-, appended⟩ | ⟨-, lost⟩ := crxPush_cases x s
  · rw [appended]
  · rw [lost]

/-- Of an instruction of neither pipeline: CK.SUM8, a push or RESET. -/
theorem effect_par_of_env {i : Instr} (notC2s : ofC2s i = false) (notS2c : ofS2c i = false) (s : State) :
    (effect i s).par = s.par := by
  cases i with
  | ckSum8 => rfl
  | envSrxPush b => exact srxPush_par b s
  | envCrxPush F => exact crxPush_par _ s
  | envCrxPusherr => exact crxPush_par _ s
  | reset openOk => rw [effect, resetBlock_eq]
  | ckClr P | ckAdd P => cases P <;> contradiction
  | c2sRecv | c2sRderr | c2sProc | sfTx => cases notC2s
  | _ => cases notS2c

/-- Settles O45 (R20, R27). -/
theorem parametersNeverChange : Obligations.ParametersNeverChange := by
  intro i s t h
  by_cases c2s : ofC2s i = true
  · rw [eq_withC2sOf_of_exec c2s h]
    rfl
  by_cases s2c : ofS2c i = true
  · rw [eq_withS2cOf_of_exec s2c h]
    rfl
  obtain ⟨-, rfl⟩ := exec_eq_next_iff.mp h
  exact effect_par_of_env (Bool.eq_false_of_not_eq_true c2s) (Bool.eq_false_of_not_eq_true s2c) s

/-! ### Single rows -/

/-- Settles O22: the first four phases of R102, with the flag of a short write. -/
theorem sfTxBuildsAndOffersTheFrame : Obligations.SfTxBuildsAndOffersTheFrame := by
  intro s p k proc data
  have whole : k.val = 11 ↔ k = 11 := (Fin.ext_iff (b := 11)).symm
  rw [exec_of_enabled (i := .sfTx p k) ⟨proc, data⟩, effect, c2sTransmit_eq, c2sWrite_eq, data, setFlag_write_c2s]
  simp only [whole]
  rfl

/-- Settles O24 (R102 corner case a): of the held frame C2S.PROC reads the data alone. -/
theorem c2sProcIgnoresIdAndDlc : Obligations.C2sProcIgnoresIdAndDlc := by
  intro s F G k data
  by_cases proc : s.c2s.st = .proc
  · simp only [exec, execC2sProc, if_pos proc, c2sClear_c2sTransmit, data]
  · simp only [exec, execC2sProc, if_neg proc]

/-- Settles O29: the build and write phases of R122, for each of the two draws. -/
theorem cfTxBuildsAndOffersTheFrame : Obligations.CfTxBuildsAndOffersTheFrame := by
  intro s id d proc agree own data
  constructor
  · rw [exec_of_enabled (i := .cfTx id d .ok) ⟨proc, agree, own, data⟩, effect, s2cWrite_eq, s2cBuild, own, data]
    rfl
  · rw [exec_of_enabled (i := .cfTx id d .fail) ⟨proc, agree, own, data⟩, effect, s2cWrite_eq, s2cBuild, own, data]
    simp only [raise, setFlag_write_s2c]
    rfl

/-- Settles O34 (R50): the depth decides whether there is room, for a frame as for `Err`. -/
theorem crxPushAppendsOrLoses : Obligations.CrxPushAppendsOrLoses := by
  intro s F
  refine ⟨fun depth => ?_, fun d depth reached => ?_⟩
  · have room : hasRoom s.par.crxqDepth s.crxq.length = true := by
      obtain unbounded | ⟨d, finite, below⟩ := depth
      · simp [unbounded]
      · simpa [finite] using below
    exact ⟨congrArg _ (crxPush_of_room room), congrArg _ (crxPush_of_room room)⟩
  · have full : hasRoom s.par.crxqDepth s.crxq.length = false := by simpa [depth] using reached
    exact ⟨congrArg _ (crxPush_of_full full), congrArg _ (crxPush_of_full full)⟩

end Sys2Proof.Proofs

/-! Proofs of the family of the whole model: runs of several turns. One induction over the turns serves every statement
about a run; a statement gives the invariant and what each move does to it. -/

namespace Sys2Proof.Proofs

open Sys2Proof.Machine

/-! ### The induction over the turns -/

/-- A relation between the turns taken and the state reached, blind to the turns still to come, holds along a run if each
allowed turn's moves extend it. -/
theorem runSteps_keeps {I : List Turn → State → Prop} {allowed : Turn → Prop} {s : State}
    (spent : ∀ ts u q, I ts u → I ts { u with sched := q })
    (moved : ∀ ts x u t, allowed x → Moves x u t → I ts u → I (ts ++ [x]) t) (start : I [] s) (ts : List Turn)
    {r : List Turn} (sched : s.sched = ts ++ r) (all : ∀ x ∈ ts, allowed x) :
    ∃ t, runSteps ts.length s = .next t ∧ t.sched = r ∧ I ts t := by
  induction ts using List.reverseRecOn generalizing r with
  | nil => exact ⟨s, rfl, sched, start⟩
  | append_singleton ts x ih =>
    obtain ⟨before, last⟩ := List.forall_mem_append.mp all
    obtain ⟨u, run, rest, inv⟩ := ih (r := x :: r) (by simpa using sched) before
    obtain ⟨t, m⟩ := exists_moves x { u with sched := r }
    refine ⟨t, ?_, moves_sched m, moved ts x _ t (List.forall_mem_singleton.mp last) m (spent ts u r inv)⟩
    rw [List.length_append, runSteps_add _ run]
    exact runSteps_succ (step_of_moves rest m) 0

theorem filterMap_concat {α β : Type} (f : α → Option β) (l : List α) (a : α) :
    (l ++ [a]).filterMap f = l.filterMap f ++ (f a).toList := by
  cases h : f a <;> simp [h]

/-! ### What the others' turns leave and add -/

/-- C2S's part of the state after turns of the other agents: only CRXQ has grown, by what found room (R50). -/
def C2sWaits (s : State) (ts : List Turn) (t : State) : Prop :=
  t.par = s.par ∧ t.c2s = s.c2s ∧ t.stx = s.stx ∧
    ∃ more, t.crxq = s.crxq ++ more ∧ more.Sublist (ts.filterMap turnItem) ∧
      (s.par.crxqDepth = none → more = ts.filterMap turnItem)

theorem c2sWaits_move {s : State} {ts : List Turn} {x : Turn} {u t : State}
    (other : turnOfC2s x = false ∧ turnOfReset x = false) (m : Moves x u t) (inv : C2sWaits s ts u) :
    C2sWaits s (ts ++ [x]) t := by
  obtain ⟨par, c2s, stx, more, crxq, sub, whole⟩ := inv
  obtain ⟨c2sKept, stxKept, added⟩ := moves_c2s_frame m other.1 other.2
  rw [crxq, List.append_assoc] at added
  refine ⟨(moves_par m).trans par, c2sKept.trans c2s, stxKept.trans stx, _, added, ?_, fun unbounded => ?_⟩
  · rw [filterMap_concat]
    refine sub.append ?_
    split
    · exact List.Sublist.refl _
    · exact List.nil_sublist _
  · rw [filterMap_concat, whole unbounded, par, unbounded, hasRoom_none, if_pos rfl]

/-- Settles O57 (R180, R100): what the others' turns leave is C2S.RECV's guard, with the frame still at the head. -/
theorem waitingFrameIsTakenAtTheTurn : Obligations.WaitingFrameIsTakenAtTheTurn := by
  intro s F rest ts r k waits queue sched others
  obtain ⟨u, run, sched', -, c2s, stx, more, crxq, sub, whole⟩ :=
    runSteps_keeps (I := C2sWaits s) (fun _ _ _ inv => inv) (fun _ _ _ _ => c2sWaits_move)
      ⟨rfl, rfl, rfl, [], (List.append_nil _).symm, List.Sublist.refl _, fun _ => rfl⟩ ts sched others
  have taken := step_c2sRecv sched' (c2s ▸ waits) (crxq.trans (congrArg (· ++ more) queue))
  exact ⟨_, more, (runSteps_add 1 run).trans (runSteps_succ taken 0),
    congrArg (fun c : C2S => { c with canin := F, st := .proc }) c2s, rfl, sub, whole, stx, rfl⟩

/-- S2C's part of the state after turns of the other agents, with an unbounded SRXQ: only SRXQ has grown (R49). -/
def S2cWaits (s : State) (ts : List Turn) (t : State) : Prop :=
  t.par = s.par ∧ t.s2c = s.s2c ∧ t.ctx = s.ctx ∧
    (s.par.rxqDepth = none → t.srxq = s.srxq ++ ts.filterMap turnByte)

theorem s2cWaits_move {s : State} {ts : List Turn} {x : Turn} {u t : State}
    (other : turnOfS2c x = false ∧ turnOfReset x = false) (m : Moves x u t) (inv : S2cWaits s ts u) :
    S2cWaits s (ts ++ [x]) t := by
  obtain ⟨par, s2c, ctx, srxq⟩ := inv
  obtain ⟨s2cKept, ctxKept, added⟩ := moves_s2c_frame m other.1 other.2
  refine ⟨(moves_par m).trans par, s2cKept.trans s2c, ctxKept.trans ctx, fun unbounded => ?_⟩
  rw [added, srxq unbounded, par, unbounded, hasRoom_none, if_pos rfl, filterMap_concat, List.append_assoc]

/-- Settles O58 (R180, R121 case e): what the others' turns leave is S2C.CAPTURE's guard, with the window still at the head
of SRXQ and the bytes delivered behind it. -/
theorem captureTakesTheOldestElevenBytes : Obligations.CaptureTakesTheOldestElevenBytes := by
  intro s W X ts r w waits queue unbounded sched others
  obtain ⟨u, run, sched', -, s2c, ctx, srxq⟩ :=
    runSteps_keeps (I := S2cWaits s) (fun _ _ _ inv => inv) (fun _ _ _ _ => s2cWaits_move)
      ⟨rfl, rfl, rfl, fun _ => (List.append_nil _).symm⟩ ts sched others
  have window : u.srxq = W.bytes ++ (X ++ ts.filterMap turnByte) := by
    rw [srxq unbounded, queue, List.append_assoc]
  have captured := step_s2cCapture sched' (s2c ▸ waits) window
  refine ⟨_, (runSteps_add 1 run).trans (runSteps_succ captured 0), rfl, rfl, rfl, ctx, ?_, rfl⟩
  simp only [s2cCaptured, surplusEvent, s2c, List.length_eq_zero_iff]

/-! ### C2S over a run -/

/-- The frame C2S holds in PROC. -/
def heldFrame (t : State) : List CanFrame := if t.c2s.st = .proc then [t.c2s.canin] else []

theorem heldFrame_of_proc {t : State} (proc : t.c2s.st = .proc) : heldFrame t = [t.c2s.canin] := if_pos proc

theorem heldFrame_of_wait {t : State} (waits : t.c2s.st = .wait) : heldFrame t = [] :=
  if_neg (by simp [waits])

theorem heldFrame_congr {u t : State} (c2s : t.c2s = u.c2s) : heldFrame t = heldFrame u := by
  rw [heldFrame, heldFrame, c2s]

/-- The bytes these frames put on STX under these draws (R102). -/
def sentBytes (done : List CanFrame) (ks : List (Fin 12)) : List Byte :=
  (List.zipWith (fun F k => (sfFrame F.data).bytes.take k.val) done ks).flatten

theorem sentBytes_concat {done : List CanFrame} {ks : List (Fin 12)} (len : ks.length = done.length) (F : CanFrame)
    (k : Fin 12) : sentBytes (done ++ [F]) (ks ++ [k]) = sentBytes done ks ++ (sfFrame F.data).bytes.take k.val := by
  rw [sentBytes, List.zipWith_append len.symm, List.flatten_append]
  simp [sentBytes]

/-- R55's account of C2S after some turns: the items taken, the frames processed and the draws of their writes. -/
def C2sCarried (s : State) (ts : List Turn) (t : State) : Prop :=
  t.par.crxqDepth = none ∧ ∃ (taken : List Item) (done : List CanFrame) (ks : List (Fin 12)),
    s.crxq ++ ts.filterMap turnItem = taken ++ t.crxq ∧
    taken.filterMap itemFrame = done ++ heldFrame t ∧
    ks.length = done.length ∧
    t.stx = s.stx ++ sentBytes done ks

section

variable {s : State} {ts : List Turn} {u t : State}

/-- A turn of another agent adds behind CRXQ what it delivers. -/
theorem c2sCarried_of_other {x : Turn} (m : Moves x u t) (other : turnOfC2s x = false) (noReset : turnOfReset x = false)
    (inv : C2sCarried s ts u) : C2sCarried s (ts ++ [x]) t := by
  obtain ⟨unbounded, taken, done, ks, stream, frames, len, stx⟩ := inv
  obtain ⟨c2s, stxKept, added⟩ := moves_c2s_frame m other noReset
  rw [unbounded, hasRoom_none, if_pos rfl] at added
  refine ⟨moves_par m ▸ unbounded, taken, done, ks, ?_, ?_, len, stxKept.trans stx⟩
  · rw [filterMap_concat, added, ← List.append_assoc, stream, List.append_assoc]
  · rw [heldFrame_congr c2s, frames]

/-- A turn of C2S takes the head of CRXQ, or processes the frame held, or leaves all as it was. -/
theorem c2sCarried_of_c2s {k : Fin 12} (m : Moves (.c2s k) u t) (inv : C2sCarried s ts u) :
    C2sCarried s (ts ++ [.c2s k]) t := by
  obtain ⟨unbounded, taken, done, ks, stream, frames, len, stx⟩ := inv
  have delivered : (ts ++ [Turn.c2s k]).filterMap turnItem = ts.filterMap turnItem := by
    rw [filterMap_concat]
    exact List.append_nil _
  rw [← delivered] at stream
  cases m with
  | c2sIdle | c2sHalted => exact ⟨unbounded, taken, done, ks, stream, frames, len, stx⟩
  | recv k u F rest waits queue =>
    refine ⟨unbounded, taken ++ [.frame F], done, ks, ?_, ?_, len, stx⟩
    · rw [stream, queue, List.append_assoc, List.singleton_append]
    · rw [filterMap_concat, frames, heldFrame_of_wait waits, List.append_nil]
      rfl
  | rderr k u rest waits queue =>
    refine ⟨unbounded, taken ++ [.err], done, ks, ?_, ?_, len, stx⟩
    · rw [stream, queue, List.append_assoc, List.singleton_append]
    · rw [filterMap_concat, frames]
      exact List.append_nil _
  | proc k u proc =>
    refine ⟨unbounded, taken, done ++ [u.c2s.canin], ks ++ [k], stream, ?_, ?_, ?_⟩
    · rw [frames, heldFrame_of_proc proc]
      exact (List.append_nil _).symm
    · rw [List.length_append, List.length_append, len]
      rfl
    · rw [sentBytes_concat len, stx, List.append_assoc]

theorem c2sCarried_move {x : Turn} (noReset : turnOfReset x = false) (m : Moves x u t) (inv : C2sCarried s ts u) :
    C2sCarried s (ts ++ [x]) t := by
  cases turn : turnOfC2s x with
  | false => exact c2sCarried_of_other m turn noReset inv
  | true =>
    obtain ⟨k, rfl⟩ := turnOfC2s_iff.mp turn
    exact c2sCarried_of_c2s m inv

end

/-- Settles O55 (R55, R183). -/
theorem stxCarriesTheFramesInOrder : Obligations.StxCarriesTheFramesInOrder := by
  intro s ts r waits unbounded sched noReset
  have start : C2sCarried s [] s :=
    ⟨unbounded, [], [], [], List.append_nil _, (heldFrame_of_wait waits).symm, rfl, (List.append_nil _).symm⟩
  obtain ⟨t, run, -, -, taken, done, ks, stream, frames, len, stx⟩ :=
    runSteps_keeps (I := C2sCarried s) (fun _ _ _ inv => inv) (fun _ _ _ _ => c2sCarried_move) start ts sched noReset
  exact ⟨t, taken, done, ks, run, stream, frames, len, stx⟩

/-! ### S2C over a run -/

/-- The window S2C holds in PROC. -/
def heldWindow (t : State) : List SerialFrame := if t.s2c.st = .proc then [t.s2c.ibuf] else []

theorem heldWindow_of_proc {t : State} (proc : t.s2c.st = .proc) : heldWindow t = [t.s2c.ibuf] := if_pos proc

theorem heldWindow_of_wait {t : State} (waits : t.s2c.st = .wait) : heldWindow t = [] :=
  if_neg (by simp [waits])

theorem heldWindow_congr {u t : State} (s2c : t.s2c = u.s2c) : heldWindow t = heldWindow u := by
  rw [heldWindow, heldWindow, s2c]

/-- What a cycle took from the stream. -/
def cycleBytes (c : Cycle) : List Byte := c.window.bytes ++ c.surplus

/-- What a held window took from the stream. -/
def captureBytes (h : SerialFrame × List Byte) : List Byte := h.1.bytes ++ h.2

/-- What a cycle sends to CTX (R122). -/
def cycleFrames (id : BitVec 11) (c : Cycle) : List CanFrame :=
  if cksum8 c.window.pay = c.window.ck ∧ c.write = .ok then [cfFrame id c.window.pay] else []

/-- What a cycle records (R121, R122, R123). -/
def cycleEvents (c : Cycle) : List Event :=
  surplusEvent c.surplus ++
    (if cksum8 c.window.pay ≠ c.window.ck then [.checksumMismatch (cksum8 c.window.pay) c.window.ck]
     else if c.write = .fail then [.transportWriteError none] else [])

/-- R55's account of S2C after some turns: the cycles completed, and the window held with its surplus. -/
def S2cCarried (s : State) (ts : List Turn) (t : State) : Prop :=
  t.par = s.par ∧ s.par.rxqDepth = none ∧ ∃ (done : List Cycle) (held : List (SerialFrame × List Byte)),
    s.srxq ++ ts.filterMap turnByte = done.flatMap cycleBytes ++ held.flatMap captureBytes ++ t.srxq ∧
    held.map Prod.fst = heldWindow t ∧
    (done.map Cycle.write).Sublist (ts.filterMap turnWrite) ∧
    t.ctx = s.ctx ++ done.flatMap (cycleFrames s.par.canTxId) ∧
    t.s2c.evt = s.s2c.evt ++ done.flatMap cycleEvents ++ held.flatMap fun h => surplusEvent h.2

theorem moves_s2c_of_window {u t : State} {W : SerialFrame} {X : List Byte} {w : CanWrite} (m : Moves (.s2c w) u t)
    (waits : u.s2c.st = .wait) (queue : u.srxq = W.bytes ++ X) : t = s2cCaptured W X u := by
  have runs : s2cRuns w u = .next t := turnRuns_of_moves m
  rw [s2cRuns_of_window waits queue, exec_s2cCapture_of_wait waits queue] at runs
  exact (Host.Outcome.next.inj runs).symm

/-- A turn of S2C does nothing, or captures the window at the head of SRXQ, or processes the window held. -/
theorem moves_s2c_cases {u t : State} {w : CanWrite} (m : Moves (.s2c w) u t) :
    t = u ∨ (∃ W X, u.s2c.st = .wait ∧ u.srxq = W.bytes ++ X ∧ t = s2cCaptured W X u) ∨
      (u.s2c.st = .proc ∧ t = s2cProcessed u.s2c.ibuf w u) := by
  by_cases proc : u.s2c.st = .proc
  · exact .inr (.inr ⟨proc, moves_s2c_of_proc m proc⟩)
  · have whole := m
    cases m with
    | poll | s2cHalted => exact .inl rfl
    | capture w u waits enough =>
      have queue := (SerialFrame.window_bytes u.srxq enough).symm
      exact .inr (.inl ⟨_, _, waits, queue, moves_s2c_of_window whole waits queue⟩)
    | fwdOk _ inProc => exact absurd inProc proc
    | fwdFail _ inProc => exact absurd inProc proc
    | drop _ _ inProc => exact absurd inProc proc

section

variable {s : State} {ts : List Turn} {u t : State}

/-- A turn of another agent adds behind SRXQ what it delivers. -/
theorem s2cCarried_of_other {x : Turn} (m : Moves x u t) (other : turnOfS2c x = false) (noReset : turnOfReset x = false)
    (inv : S2cCarried s ts u) : S2cCarried s (ts ++ [x]) t := by
  obtain ⟨par, unbounded, done, held, stream, windows, draws, ctx, evt⟩ := inv
  obtain ⟨s2c, ctxKept, added⟩ := moves_s2c_frame m other noReset
  rw [par, unbounded, hasRoom_none, if_pos rfl] at added
  refine ⟨(moves_par m).trans par, unbounded, done, held, ?_, ?_, ?_, ctxKept.trans ctx, s2c ▸ evt⟩
  · rw [filterMap_concat, added, ← List.append_assoc, stream, List.append_assoc]
  · rw [heldWindow_congr s2c, windows]
  · rw [filterMap_concat]
    exact List.sublist_append_of_sublist_left draws

/-- A captured window is held with its surplus, which is on record. -/
theorem s2cCarried_of_captured {W : SerialFrame} {X : List Byte} {w : CanWrite} (waits : u.s2c.st = .wait)
    (queue : u.srxq = W.bytes ++ X) (inv : S2cCarried s ts u) :
    S2cCarried s (ts ++ [.s2c w]) (s2cCaptured W X u) := by
  obtain ⟨par, unbounded, done, held, stream, windows, draws, ctx, evt⟩ := inv
  obtain rfl : held = [] := List.map_eq_nil_iff.mp (windows.trans (heldWindow_of_wait waits))
  refine ⟨par, unbounded, done, [(W, X)], ?_, rfl, ?_, ctx, ?_⟩
  · rw [filterMap_concat]
    simpa [turnByte, queue, captureBytes, s2cCaptured] using stream
  · rw [filterMap_concat]
    exact List.sublist_append_of_sublist_left draws
  · simp [s2cCaptured, evt]

/-- The window held becomes a cycle, with the draw of this turn. -/
theorem s2cCarried_of_processed {w : CanWrite} (proc : u.s2c.st = .proc) (inv : S2cCarried s ts u) :
    S2cCarried s (ts ++ [.s2c w]) (s2cProcessed u.s2c.ibuf w u) := by
  obtain ⟨par, unbounded, done, held, stream, windows, draws, ctx, evt⟩ := inv
  obtain ⟨⟨W, X⟩, rfl, window⟩ := List.map_eq_singleton_iff.mp (windows.trans (heldWindow_of_proc proc))
  rw [← window]
  refine ⟨par, unbounded, done ++ [⟨W, X, w⟩], [], ?_, rfl, ?_, ?_, ?_⟩
  · rw [filterMap_concat]
    simpa [turnByte, captureBytes, cycleBytes, s2cProcessed] using stream
  · rw [filterMap_concat, List.map_append]
    exact draws.append (List.Sublist.refl _)
  · simp [s2cProcessed, ctx, par, cycleFrames]
  · simp [s2cProcessed, evt, cycleEvents]

theorem s2cCarried_move {x : Turn} (noReset : turnOfReset x = false) (m : Moves x u t) (inv : S2cCarried s ts u) :
    S2cCarried s (ts ++ [x]) t := by
  cases turn : turnOfS2c x with
  | false => exact s2cCarried_of_other m turn noReset inv
  | true =>
    obtain ⟨w, rfl⟩ := turnOfS2c_iff.mp turn
    obtain rfl | ⟨W, X, waits, queue, rfl⟩ | ⟨proc, rfl⟩ := moves_s2c_cases m
    · obtain ⟨par, unbounded, done, held, stream, windows, draws, ctx, evt⟩ := inv
      refine ⟨par, unbounded, done, held, ?_, windows, ?_, ctx, evt⟩
      · rw [filterMap_concat, ← stream]
        exact congrArg _ (List.append_nil _)
      · rw [filterMap_concat]
        exact List.sublist_append_of_sublist_left draws
    · exact s2cCarried_of_captured waits queue inv
    · exact s2cCarried_of_processed proc inv

end

/-- Settles O56 (R55, R125, R46, R149). -/
theorem ctxFramesComeFromTheStream : Obligations.CtxFramesComeFromTheStream := by
  intro s ts r waits unbounded sched noReset
  have start : S2cCarried s [] s :=
    ⟨rfl, unbounded, [], [], List.append_nil _, (heldWindow_of_wait waits).symm, List.Sublist.refl _,
      (List.append_nil _).symm, by simp⟩
  obtain ⟨t, run, -, -, -, done, held, account⟩ :=
    runSteps_keeps (I := S2cCarried s) (fun _ _ _ inv => inv) (fun _ _ _ _ => s2cCarried_move) start ts sched noReset
  exact ⟨t, done, held, run, account⟩

/-! ### Endless rows of turns -/

theorem resetBlock_withSched (openOk : Bool) (u : State) (q : List Turn) :
    resetBlock openOk { u with sched := q } = { resetBlock openOk u with sched := q } := by
  rw [resetBlock_eq, resetBlock_eq]

/-- No move reads the turns still to come. -/
theorem moves_withSched {x : Turn} {u t : State} (m : Moves x u t) (q : List Turn) :
    Moves x { u with sched := q } { t with sched := q } := by
  cases m with
  | c2sIdle k u waits empty => exact .c2sIdle k _ waits empty
  | c2sHalted k u halted => exact .c2sHalted k _ halted
  | recv k u F rest waits queue => exact .recv k { u with sched := q } F rest waits queue
  | rderr k u rest waits queue => exact .rderr k { u with sched := q } rest waits queue
  | proc k u proc => exact .proc k { u with sched := q } proc
  | poll w u waits few => exact .poll w _ waits few
  | capture w u waits enough => exact .capture w { u with sched := q } waits enough
  | fwdOk u proc agree => exact .fwdOk { u with sched := q } proc agree
  | fwdFail u proc agree => exact .fwdFail { u with sched := q } proc agree
  | drop w u proc differ => exact .drop w { u with sched := q } proc differ
  | s2cHalted w u halted => exact .s2cHalted w _ halted
  | srx b u room => exact .srx b { u with sched := q } room
  | srxLost b u full => exact .srxLost b _ full
  | crx F u room => exact .crx F { u with sched := q } room
  | crxLost F u full => exact .crxLost F _ full
  | crxErr u room => exact .crxErr { u with sched := q } room
  | crxErrLost u full => exact .crxErrLost _ full
  | reset openOk u => exact resetBlock_withSched openOk u q ▸ .reset openOk { u with sched := q }

/-- Turns placed behind those of a run are still there at its end. -/
theorem runSteps_append_sched {ts : List Turn} {s t : State} (sched : s.sched = ts) (run : runSteps ts.length s = .next t)
    (q : List Turn) : runSteps ts.length { s with sched := ts ++ q } = .next { t with sched := q } := by
  induction ts generalizing s with
  | nil =>
    cases run
    rfl
  | cons x ts ih =>
    obtain ⟨v, m⟩ := exists_moves x { s with sched := ts }
    rw [List.length_cons, runSteps_succ (step_of_moves sched m)] at run
    have first : step { s with sched := x :: ts ++ q } = .next { v with sched := ts ++ q } :=
      step_of_moves rfl (moves_withSched m (ts ++ q))
    exact (runSteps_succ first _).trans (ih (moves_sched m) run)

/-- The states an endless row of turns passes through, each the move of its turn from the one before. -/
def IsTrace (turns : Nat → Turn) (s : State) (σ : Nat → State) : Prop :=
  ∀ n, runTurns turns n s = .next (σ n) ∧ Moves (turns n) (σ n) (σ (n + 1))

theorem runTurns_next (turns : Nat → Turn) (s : State) (n : Nat) :
    ∃ t, runTurns turns n s = .next t ∧ t.sched = [] := by
  obtain ⟨t, run, empty, -⟩ := runSteps_keeps (I := fun _ _ => True) (allowed := fun _ => True)
    (s := { s with sched := (List.range n).map turns }) (fun _ _ _ => id) (fun _ _ _ _ _ _ => id) trivial _
    (List.append_nil _).symm (fun _ _ => trivial)
  rw [List.length_map, List.length_range] at run
  exact ⟨t, run, empty⟩

theorem runSteps_one (s : State) : runSteps 1 s = step s := by
  rw [runSteps]
  cases step s <;> rfl

theorem runTurns_succ {turns : Nat → Turn} {s t : State} {n : Nat} (run : runTurns turns n s = .next t) :
    runTurns turns (n + 1) s = step { t with sched := [turns n] } := by
  have behind := runSteps_append_sched (ts := (List.range n).map turns)
    (s := { s with sched := (List.range n).map turns }) rfl (by simpa [runTurns] using run) [turns n]
  rw [List.length_map, List.length_range] at behind
  rw [runTurns, List.range_succ, List.map_append, List.map_singleton, runSteps_add 1 behind, runSteps_one]

theorem exists_trace (turns : Nat → Turn) (s : State) : ∃ σ, IsTrace turns s σ := by
  choose σ run empty using runTurns_next turns s
  refine ⟨σ, fun n => ⟨run n, ?_⟩⟩
  have step := (runTurns_succ (run n)).symm.trans (run (n + 1))
  have same : { σ n with sched := [] } = σ n := by rw [← empty n]
  rw [← same]
  exact moves_of_step step

/-- What holds until an agent's turn holds at one, if its turns never end. -/
theorem exists_turn_of_fair {turns : Nat → Turn} {agent : Turn → Bool}
    (fair : ∀ n, ∃ m, n ≤ m ∧ agent (turns m) = true) {Q : Nat → Prop}
    (kept : ∀ n, agent (turns n) = false → Q n → Q (n + 1)) {n : Nat} (now : Q n) :
    ∃ m, agent (turns m) = true ∧ Q m := by
  obtain ⟨m, le, turn⟩ := fair n
  obtain ⟨d, rfl⟩ := Nat.exists_eq_add_of_le le
  clear le
  induction d generalizing n with
  | zero => exact ⟨n, turn, now⟩
  | succ d ih =>
    cases here : agent (turns n) with
    | true => exact ⟨n, here, now⟩
    | false => exact ih (kept n here now) (by rwa [Nat.add_right_comm])

section

variable {turns : Nat → Turn} {s : State} {σ : Nat → State}

/-- After `n` turns C2S's registers are `c` and CRXQ is `q` and what the environment added since the start. -/
def C2sAt (turns : Nat → Turn) (s : State) (σ : Nat → State) (c : C2S) (q : List Item) (n : Nat) : Prop :=
  (σ n).c2s = c ∧ (σ n).crxq = q ++ crxAdded turns s n

theorem crxAdded_succ_of_c2s (trace : IsTrace turns s σ) {n : Nat} {k : Fin 12} (turn : turns n = .c2s k) :
    crxAdded turns s (n + 1) = crxAdded turns s n := by
  rw [crxAdded_succ (trace n).1, turn]
  simp [turnItem]

theorem c2sAt_succ_of_other (trace : IsTrace turns s σ) (noReset : ∀ n, turnOfReset (turns n) = false) {c : C2S}
    {q : List Item} {n : Nat} (other : turnOfC2s (turns n) = false) (now : C2sAt turns s σ c q n) :
    C2sAt turns s σ c q (n + 1) := by
  obtain ⟨c2s, crxq⟩ := now
  obtain ⟨c2sKept, -, added⟩ := moves_c2s_frame (trace n).2 other (noReset n)
  exact ⟨c2sKept.trans c2s, by rw [added, crxAdded_succ (trace n).1, crxq, List.append_assoc]⟩

/-- Under fairness C2S gets a turn, with its registers and its part of CRXQ as they were. -/
theorem c2sAt_turn (trace : IsTrace turns s σ) (noReset : ∀ n, turnOfReset (turns n) = false) (fair : FairTurns turns)
    {c : C2S} {q : List Item} {n : Nat} (now : C2sAt turns s σ c q n) :
    ∃ m k, turns m = .c2s k ∧ C2sAt turns s σ c q m := by
  obtain ⟨m, turn, atTurn⟩ := exists_turn_of_fair fair.1 (fun _ => c2sAt_succ_of_other trace noReset) now
  obtain ⟨k, turn⟩ := turnOfC2s_iff.mp turn
  exact ⟨m, k, turn, atTurn⟩

/-- A C2S that is not halted waits again, with its part of CRXQ as it was. -/
theorem exists_waiting (trace : IsTrace turns s σ) (noReset : ∀ n, turnOfReset (turns n) = false) (fair : FairTurns turns)
    {c : C2S} {q : List Item} {n : Nat} (running : c.st ≠ .halt) (now : C2sAt turns s σ c q n) :
    ∃ c' m, c'.st = .wait ∧ C2sAt turns s σ c' q m := by
  cases st : c.st with
  | wait => exact ⟨c, n, st, now⟩
  | halt => exact absurd st running
  | proc =>
    obtain ⟨m, k, turn, rfl, crxq⟩ := c2sAt_turn trace noReset fair now
    have move := (trace m).2
    rw [turn] at move
    obtain ⟨waits, kept, -⟩ := moves_c2s_of_proc move st
    exact ⟨_, m + 1, waits, rfl, by rw [kept, crxq, crxAdded_succ_of_c2s trace turn]⟩

/-- A waiting C2S takes the head of CRXQ: a frame is latched, an `Err` leaves it waiting. -/
theorem moves_c2s_of_head {k : Fin 12} {u t : State} {y : Item} {rest : List Item} (m : Moves (.c2s k) u t)
    (waits : u.c2s.st = .wait) (queue : u.crxq = y :: rest) :
    t.crxq = rest ∧ t.c2s.st ≠ .halt ∧ ∀ F, y = .frame F → t.c2s.st = .proc ∧ t.c2s.canin = F := by
  cases m with
  | c2sIdle _ _ _ empty => exact nomatch empty.symm.trans queue
  | c2sHalted _ _ halted => exact nomatch waits.symm.trans halted
  | proc _ _ proc => exact nomatch waits.symm.trans proc
  | recv _ _ F _ _ head =>
    cases head.symm.trans queue
    exact ⟨rfl, nofun, fun G same => ⟨rfl, Item.frame.inj same⟩⟩
  | rderr _ _ _ _ head =>
    cases head.symm.trans queue
    exact ⟨rfl, by simp [waits], nofun⟩

/-- A C2S that is not halted takes the head of its part of CRXQ some day. -/
theorem exists_taken (trace : IsTrace turns s σ) (noReset : ∀ n, turnOfReset (turns n) = false) (fair : FairTurns turns)
    {c : C2S} {y : Item} {q : List Item} {n : Nat} (running : c.st ≠ .halt) (now : C2sAt turns s σ c (y :: q) n) :
    ∃ c' m, c'.st ≠ .halt ∧ (∀ F, y = .frame F → c'.st = .proc ∧ c'.canin = F) ∧ C2sAt turns s σ c' q m := by
  obtain ⟨c, n, waits, now⟩ := exists_waiting trace noReset fair running now
  obtain ⟨m, k, turn, rfl, crxq⟩ := c2sAt_turn trace noReset fair now
  have move := (trace m).2
  rw [turn] at move
  obtain ⟨rest, running, latched⟩ := moves_c2s_of_head move waits crxq
  rw [← crxAdded_succ_of_c2s trace turn] at rest
  exact ⟨_, m + 1, running, latched, rfl, rest⟩

/-- A frame standing in CRXQ is held in PROC some day, with what stood behind it still there (R180). -/
theorem exists_latched (trace : IsTrace turns s σ) (noReset : ∀ n, turnOfReset (turns n) = false) (fair : FairTurns turns)
    (before : List Item) {F : CanFrame} {after : List Item} {c : C2S} {n : Nat} (running : c.st ≠ .halt)
    (now : C2sAt turns s σ c (before ++ .frame F :: after) n) :
    ∃ c' m, c'.st = .proc ∧ c'.canin = F ∧ C2sAt turns s σ c' after m := by
  induction before generalizing c n with
  | nil =>
    obtain ⟨c, m, -, latched, now⟩ := exists_taken trace noReset fair running now
    obtain ⟨proc, canin⟩ := latched F rfl
    exact ⟨c, m, proc, canin, now⟩
  | cons y before ih =>
    obtain ⟨c, m, running, -, now⟩ := exists_taken trace noReset fair running now
    exact ih running now

/-- After `n` turns S2C still waits as at the start, and SRXQ is what it was and what the environment added since. -/
def S2cStill (turns : Nat → Turn) (s : State) (σ : Nat → State) (n : Nat) : Prop :=
  (σ n).s2c = s.s2c ∧ (σ n).ctx = s.ctx ∧ (σ n).srxq = s.srxq ++ srxAdded turns s n

theorem s2cStill_succ_of_other (trace : IsTrace turns s σ) (noReset : ∀ n, turnOfReset (turns n) = false) {n : Nat}
    (other : turnOfS2c (turns n) = false) (now : S2cStill turns s σ n) : S2cStill turns s σ (n + 1) := by
  obtain ⟨s2c, ctx, srxq⟩ := now
  obtain ⟨s2cKept, ctxKept, added⟩ := moves_s2c_frame (trace n).2 other (noReset n)
  exact ⟨s2cKept.trans s2c, ctxKept.trans ctx, by rw [added, srxAdded_succ (trace n).1, srxq, List.append_assoc]⟩

theorem srxAdded_succ_of_s2c (trace : IsTrace turns s σ) {n : Nat} {w : CanWrite} (turn : turns n = .s2c w) :
    srxAdded turns s (n + 1) = srxAdded turns s n := by
  rw [srxAdded_succ (trace n).1, turn]
  simp [turnByte]

end

theorem trace_zero {turns : Nat → Turn} {s : State} {σ : Nat → State} (trace : IsTrace turns s σ) :
    σ 0 = { s with sched := [] } :=
  (Host.Outcome.next.inj (trace 0).1).symm

/-- The first half of R180's promise: the frame is latched, and C2S's next turn sends it. -/
theorem fair_frame_converted {s : State} {turns : Nat → Turn} (fair : FairTurns turns)
    (noReset : ∀ n, turnOfReset (turns n) = false) {before after : List Item} {F : CanFrame} (running : s.c2s.st ≠ .halt)
    (queue : s.crxq = before ++ .frame F :: after) :
    ∃ (n : Nat) (k : Fin 12) (t u : State), turns n = .c2s k ∧
      runTurns turns n s = .next t ∧ t.c2s.st = .proc ∧ t.c2s.canin = F ∧ t.crxq = after ++ crxAdded turns s n ∧
      runTurns turns (n + 1) s = .next u ∧ u.c2s.st = .wait ∧ u.crxq = t.crxq ∧
      u.stx = t.stx ++ (sfFrame F.data).bytes.take k.val := by
  obtain ⟨σ, trace⟩ := exists_trace turns s
  have start : C2sAt turns s σ s.c2s (before ++ .frame F :: after) 0 := by
    rw [C2sAt, trace_zero trace, crxAdded_zero, List.append_nil]
    exact ⟨rfl, queue⟩
  obtain ⟨c, m, proc, canin, now⟩ := exists_latched trace noReset fair before running start
  obtain ⟨n, k, turn, rfl, crxq⟩ := c2sAt_turn trace noReset fair now
  have move := (trace n).2
  rw [turn] at move
  obtain ⟨waits, kept, sent⟩ := moves_c2s_of_proc move proc
  rw [canin] at sent
  exact ⟨n, k, σ n, σ (n + 1), turn, (trace n).1, proc, canin, crxq, (trace (n + 1)).1, waits, kept, sent⟩

/-- The second half of R180's promise: S2C's first turn is the capture. -/
theorem fair_window_captured {s : State} {turns : Nat → Turn} (fair : FairTurns turns)
    (noReset : ∀ n, turnOfReset (turns n) = false) (waits : s.s2c.st = .wait) (enough : 11 ≤ s.srxq.length) :
    ∃ (n : Nat) (t : State), runTurns turns n s = .next t ∧ t.s2c.st = .proc ∧ t.s2c.ibuf.bytes = s.srxq.take 11 ∧
      t.srxq = [] ∧ t.ctx = s.ctx ∧ t.s2c.evt = s.s2c.evt ++ surplusEvent (s.srxq.drop 11 ++ srxAdded turns s n) := by
  obtain ⟨σ, trace⟩ := exists_trace turns s
  have start : S2cStill turns s σ 0 := by
    rw [S2cStill, trace_zero trace, srxAdded_zero, List.append_nil]
    exact ⟨rfl, rfl, rfl⟩
  obtain ⟨m, turn, s2c, ctx, srxq⟩ := exists_turn_of_fair fair.2 (fun _ => s2cStill_succ_of_other trace noReset) start
  obtain ⟨w, turn⟩ := turnOfS2c_iff.mp turn
  have move := (trace m).2
  rw [turn] at move
  have window : (σ m).srxq
      = (SerialFrame.window s.srxq).bytes ++ (s.srxq.drop 11 ++ srxAdded turns s (m + 1)) := by
    rw [srxq, srxAdded_succ_of_s2c trace turn, ← List.append_assoc, SerialFrame.window_bytes s.srxq enough]
  have captured := moves_s2c_of_window move (s2c ▸ waits) window
  refine ⟨m + 1, σ (m + 1), (trace (m + 1)).1, ?_⟩
  rw [captured, ← s2c, ← ctx]
  exact ⟨rfl, window_bytes_eq_take enough, rfl, rfl, rfl⟩

/-- Settles O59 (R180). -/
theorem fairRunsConvertAndCapture : Obligations.FairRunsConvertAndCapture := by
  intro s turns fair noReset
  exact ⟨fun before after F running queue => fair_frame_converted fair noReset running queue,
    fun waits enough => fair_window_captured fair noReset waits enough⟩

end Sys2Proof.Proofs
